-- ==== Sys2Proof/Word.lean ====
section
/-! DEFINITION. The widths of R4: bytes, 16-bit words, register and key indices. -/

namespace Sys2Proof

/-- An 8-bit value: a general register, a timer, a byte of memory (R4: XLEN, TLEN). -/
abbrev Byte := BitVec 8

/-- A 16-bit value: `pc`, `i`, a return address, an instruction word (R4: PCLEN, ILEN, INSN_BYTES). -/
abbrev Word := BitVec 16

/-- The number of a general register, a 4-bit field of an instruction (R10, R67). -/
abbrev RegIdx := Fin 16

/-- The number of a key (R31). -/
abbrev KeyIdx := Fin 16

end Sys2Proof
end

