-- ==== Sys2Proof/Syntax.lean ====
section
/-! DEFINITION. The 34 instructions of R70, one constructor per row of the opcode table, named by the
row's pattern. Operands are R67's: `x`, `y` register indices, `n` a row count 0 to 15, `nn` an 8-bit
and `nnn` a 12-bit immediate. -/

namespace Sys2Proof

/-- One CHIP-8 instruction (R70). -/
inductive Instr where
  /-- `CLS`: clear the framebuffer (R100). -/
  | op00E0
  /-- `RET`: return from subroutine (R101). -/
  | op00EE
  /-- `JP NNN` (R102). -/
  | op1NNN (nnn : BitVec 12)
  /-- `CALL NNN` (R103). -/
  | op2NNN (nnn : BitVec 12)
  /-- `SE Vx, NN` (R110). -/
  | op3XNN (x : RegIdx) (nn : Byte)
  /-- `SNE Vx, NN` (R111). -/
  | op4XNN (x : RegIdx) (nn : Byte)
  /-- `SE Vx, Vy` (R112). -/
  | op5XY0 (x y : RegIdx)
  /-- `LD Vx, NN` (R115). -/
  | op6XNN (x : RegIdx) (nn : Byte)
  /-- `ADD Vx, NN` (R116). -/
  | op7XNN (x : RegIdx) (nn : Byte)
  /-- `LD Vx, Vy` (R121). -/
  | op8XY0 (x y : RegIdx)
  /-- `OR Vx, Vy` (R122). -/
  | op8XY1 (x y : RegIdx)
  /-- `AND Vx, Vy` (R123). -/
  | op8XY2 (x y : RegIdx)
  /-- `XOR Vx, Vy` (R124). -/
  | op8XY3 (x y : RegIdx)
  /-- `ADD Vx, Vy` (R125). -/
  | op8XY4 (x y : RegIdx)
  /-- `SUB Vx, Vy` (R126). -/
  | op8XY5 (x y : RegIdx)
  /-- `SHR Vx, Vy` (R127). -/
  | op8XY6 (x y : RegIdx)
  /-- `SUBN Vx, Vy` (R128). -/
  | op8XY7 (x y : RegIdx)
  /-- `SHL Vx, Vy` (R129). -/
  | op8XYE (x y : RegIdx)
  /-- `SNE Vx, Vy` (R135). -/
  | op9XY0 (x y : RegIdx)
  /-- `LD I, NNN` (R137). -/
  | opANNN (nnn : BitVec 12)
  /-- `JP V0, NNN` (R138). -/
  | opBNNN (nnn : BitVec 12)
  /-- `RND Vx, NN` (R139). -/
  | opCXNN (x : RegIdx) (nn : Byte)
  /-- `DRW Vx, Vy, N` (R145). -/
  | opDXYN (x y : RegIdx) (n : Fin 16)
  /-- `SKP Vx` (R155). -/
  | opEX9E (x : RegIdx)
  /-- `SKNP Vx` (R156). -/
  | opEXA1 (x : RegIdx)
  /-- `LD Vx, DT` (R160). -/
  | opFX07 (x : RegIdx)
  /-- `LD Vx, K` (R161). -/
  | opFX0A (x : RegIdx)
  /-- `LD DT, Vx` (R162). -/
  | opFX15 (x : RegIdx)
  /-- `LD ST, Vx` (R163). -/
  | opFX18 (x : RegIdx)
  /-- `ADD I, Vx` (R164). -/
  | opFX1E (x : RegIdx)
  /-- `LD F, Vx` (R165). -/
  | opFX29 (x : RegIdx)
  /-- `LD B, Vx` (R166). -/
  | opFX33 (x : RegIdx)
  /-- `LD [I], Vx` (R167). -/
  | opFX55 (x : RegIdx)
  /-- `LD Vx, [I]` (R168). -/
  | opFX65 (x : RegIdx)
  deriving DecidableEq, Repr

end Sys2Proof
end

