-- ==== Sys2Proof/WellFormed.lean ====
section
/-! DEFINITION. What a well-formed instruction word is: the opcode map of R70 as rows of match and
mask. An `Instr` needs no check of its own: R67's ranges are the types of its fields, and R73 makes
every value of a field legal in every instruction that has it. The check is on words, and it is
written from R70's match and mask columns, independently of the decoder's nibble dispatch (R68). -/

namespace Sys2Proof

/-- One row of the opcode map (R70): `w` is the instruction exactly when `w &&& mask = bits`. -/
structure MapRow where
  /-- the row's mnemonic in the opcode table -/
  mnemonic : String
  /-- the row's `match` column -/
  bits : Word
  /-- the row's `mask` column -/
  mask : Word
  deriving DecidableEq, Repr

/-- Does the word match the row? (R70) -/
def MapRow.covers (r : MapRow) (w : Word) : Bool := w &&& r.mask == r.bits

/-- The row of an instruction in the opcode map (R70). -/
def Instr.row : Instr → MapRow
  | .op00E0 => ⟨"00E0", 0x00E0, 0xFFFF⟩
  | .op00EE => ⟨"00EE", 0x00EE, 0xFFFF⟩
  | .op1NNN _ => ⟨"1NNN", 0x1000, 0xF000⟩
  | .op2NNN _ => ⟨"2NNN", 0x2000, 0xF000⟩
  | .op3XNN _ _ => ⟨"3XNN", 0x3000, 0xF000⟩
  | .op4XNN _ _ => ⟨"4XNN", 0x4000, 0xF000⟩
  | .op5XY0 _ _ => ⟨"5XY0", 0x5000, 0xF00F⟩
  | .op6XNN _ _ => ⟨"6XNN", 0x6000, 0xF000⟩
  | .op7XNN _ _ => ⟨"7XNN", 0x7000, 0xF000⟩
  | .op8XY0 _ _ => ⟨"8XY0", 0x8000, 0xF00F⟩
  | .op8XY1 _ _ => ⟨"8XY1", 0x8001, 0xF00F⟩
  | .op8XY2 _ _ => ⟨"8XY2", 0x8002, 0xF00F⟩
  | .op8XY3 _ _ => ⟨"8XY3", 0x8003, 0xF00F⟩
  | .op8XY4 _ _ => ⟨"8XY4", 0x8004, 0xF00F⟩
  | .op8XY5 _ _ => ⟨"8XY5", 0x8005, 0xF00F⟩
  | .op8XY6 _ _ => ⟨"8XY6", 0x8006, 0xF00F⟩
  | .op8XY7 _ _ => ⟨"8XY7", 0x8007, 0xF00F⟩
  | .op8XYE _ _ => ⟨"8XYE", 0x800E, 0xF00F⟩
  | .op9XY0 _ _ => ⟨"9XY0", 0x9000, 0xF00F⟩
  | .opANNN _ => ⟨"ANNN", 0xA000, 0xF000⟩
  | .opBNNN _ => ⟨"BNNN", 0xB000, 0xF000⟩
  | .opCXNN _ _ => ⟨"CXNN", 0xC000, 0xF000⟩
  | .opDXYN _ _ _ => ⟨"DXYN", 0xD000, 0xF000⟩
  | .opEX9E _ => ⟨"EX9E", 0xE09E, 0xF0FF⟩
  | .opEXA1 _ => ⟨"EXA1", 0xE0A1, 0xF0FF⟩
  | .opFX07 _ => ⟨"FX07", 0xF007, 0xF0FF⟩
  | .opFX0A _ => ⟨"FX0A", 0xF00A, 0xF0FF⟩
  | .opFX15 _ => ⟨"FX15", 0xF015, 0xF0FF⟩
  | .opFX18 _ => ⟨"FX18", 0xF018, 0xF0FF⟩
  | .opFX1E _ => ⟨"FX1E", 0xF01E, 0xF0FF⟩
  | .opFX29 _ => ⟨"FX29", 0xF029, 0xF0FF⟩
  | .opFX33 _ => ⟨"FX33", 0xF033, 0xF0FF⟩
  | .opFX55 _ => ⟨"FX55", 0xF055, 0xF0FF⟩
  | .opFX65 _ => ⟨"FX65", 0xF065, 0xF0FF⟩

/-- The complete opcode map, in the table's order (R70): the row of one instruction of each shape. -/
def opcodeMap : List MapRow :=
  [Instr.op00E0.row, Instr.op00EE.row, (Instr.op1NNN 0).row, (Instr.op2NNN 0).row,
   (Instr.op3XNN 0 0).row, (Instr.op4XNN 0 0).row, (Instr.op5XY0 0 0).row, (Instr.op6XNN 0 0).row,
   (Instr.op7XNN 0 0).row] ++
  [(Instr.op8XY0 0 0).row, (Instr.op8XY1 0 0).row, (Instr.op8XY2 0 0).row, (Instr.op8XY3 0 0).row,
   (Instr.op8XY4 0 0).row, (Instr.op8XY5 0 0).row, (Instr.op8XY6 0 0).row, (Instr.op8XY7 0 0).row,
   (Instr.op8XYE 0 0).row] ++
  [(Instr.op9XY0 0 0).row, (Instr.opANNN 0).row, (Instr.opBNNN 0).row, (Instr.opCXNN 0 0).row,
   (Instr.opDXYN 0 0 0).row, (Instr.opEX9E 0).row, (Instr.opEXA1 0).row, (Instr.opFX07 0).row,
   (Instr.opFX0A 0).row] ++
  [(Instr.opFX15 0).row, (Instr.opFX18 0).row, (Instr.opFX1E 0).row, (Instr.opFX29 0).row,
   (Instr.opFX33 0).row, (Instr.opFX55 0).row, (Instr.opFX65 0).row]

/-- A word is well-formed when it matches some row of the opcode map; every other word is illegal
(R71). -/
def wordWellFormed (w : Word) : Bool := opcodeMap.any fun r => r.covers w

end Sys2Proof
end

