-- ==== Sys2Proof/Decode.lean ====
section
/-! DEFINITION. The decoder of R68, total on every word and on every list of bytes, rejecting by name,
and the encoder written from R66 and R70. -/

namespace Sys2Proof

/-- Why bytes are not an instruction. -/
inductive DecodeError where
  /-- The word matches no instruction of its family (R71, R90). -/
  | unknownOpcode (op : Word)
  /-- Fewer than two bytes are given; a machine never decodes so few, since its fetch reads two (R65). -/
  | truncated
  deriving DecidableEq, Repr

/-- `N3`, the family: bits 15 to 12 (R66). -/
def fieldN3 (w : Word) : BitVec 4 := w.extractLsb' 12 4

/-- `X`: bits 11 to 8 (R67). -/
def fieldX (w : Word) : RegIdx := (w.extractLsb' 8 4).toFin

/-- `Y`: bits 7 to 4 (R67). -/
def fieldY (w : Word) : RegIdx := (w.extractLsb' 4 4).toFin

/-- `N`: bits 3 to 0 (R67). -/
def fieldN (w : Word) : BitVec 4 := w.extractLsb' 0 4

/-- `NN`: bits 7 to 0 (R67). -/
def fieldNN (w : Word) : Byte := w.extractLsb' 0 8

/-- `NNN`: bits 11 to 0 (R67). -/
def fieldNNN (w : Word) : BitVec 12 := w.extractLsb' 0 12

/-- Family 0 is matched on all 16 bits (R68). -/
def decodeFamily0 (w : Word) : Except DecodeError Instr :=
  if w = 0x00E0 then .ok .op00E0
  else if w = 0x00EE then .ok .op00EE
  else .error (.unknownOpcode w)

/-- Family 8 is matched on `N` (R68). -/
def decodeFamily8 (w : Word) : Except DecodeError Instr :=
  let x := fieldX w
  let y := fieldY w
  match (fieldN w).toNat with
  | 0x0 => .ok (.op8XY0 x y)
  | 0x1 => .ok (.op8XY1 x y)
  | 0x2 => .ok (.op8XY2 x y)
  | 0x3 => .ok (.op8XY3 x y)
  | 0x4 => .ok (.op8XY4 x y)
  | 0x5 => .ok (.op8XY5 x y)
  | 0x6 => .ok (.op8XY6 x y)
  | 0x7 => .ok (.op8XY7 x y)
  | 0xE => .ok (.op8XYE x y)
  | _ => .error (.unknownOpcode w)

/-- Family E is matched on `NN` (R68). -/
def decodeFamilyE (w : Word) : Except DecodeError Instr :=
  let x := fieldX w
  if fieldNN w = 0x9E then .ok (.opEX9E x)
  else if fieldNN w = 0xA1 then .ok (.opEXA1 x)
  else .error (.unknownOpcode w)

/-- Family F is matched on `NN` (R68). -/
def decodeFamilyF (w : Word) : Except DecodeError Instr :=
  let x := fieldX w
  let nn := fieldNN w
  if nn = 0x07 then .ok (.opFX07 x)
  else if nn = 0x0A then .ok (.opFX0A x)
  else if nn = 0x15 then .ok (.opFX15 x)
  else if nn = 0x18 then .ok (.opFX18 x)
  else if nn = 0x1E then .ok (.opFX1E x)
  else if nn = 0x29 then .ok (.opFX29 x)
  else if nn = 0x33 then .ok (.opFX33 x)
  else if nn = 0x55 then .ok (.opFX55 x)
  else if nn = 0x65 then .ok (.opFX65 x)
  else .error (.unknownOpcode w)

/-- The instruction a word is, or the reason it is none: the two-level dispatch of R68. Families 5
and 9 are matched on `N = 0` as well (R113, R136). -/
def decode (w : Word) : Except DecodeError Instr :=
  match (fieldN3 w).toNat with
  | 0x0 => decodeFamily0 w
  | 0x1 => .ok (.op1NNN (fieldNNN w))
  | 0x2 => .ok (.op2NNN (fieldNNN w))
  | 0x3 => .ok (.op3XNN (fieldX w) (fieldNN w))
  | 0x4 => .ok (.op4XNN (fieldX w) (fieldNN w))
  | 0x5 => if fieldN w = 0 then .ok (.op5XY0 (fieldX w) (fieldY w)) else .error (.unknownOpcode w)
  | 0x6 => .ok (.op6XNN (fieldX w) (fieldNN w))
  | 0x7 => .ok (.op7XNN (fieldX w) (fieldNN w))
  | 0x8 => decodeFamily8 w
  | 0x9 => if fieldN w = 0 then .ok (.op9XY0 (fieldX w) (fieldY w)) else .error (.unknownOpcode w)
  | 0xA => .ok (.opANNN (fieldNNN w))
  | 0xB => .ok (.opBNNN (fieldNNN w))
  | 0xC => .ok (.opCXNN (fieldX w) (fieldNN w))
  | 0xD => .ok (.opDXYN (fieldX w) (fieldY w) (fieldN w).toFin)
  | 0xE => decodeFamilyE w
  | 0xF => decodeFamilyF w
  | _ => .error (.unknownOpcode w)

/-- The word of two bytes as the fetch assembles it: the byte at the lower address is the high byte
(R41, R65). -/
def wordOfBytes (hi lo : Byte) : Word := hi ++ lo

/-- The byte of a word that lies at the lower address (R41). -/
def highByte (w : Word) : Byte := w.extractLsb' 8 8

/-- The byte of a word that lies at the higher address (R41). -/
def lowByte (w : Word) : Byte := w.extractLsb' 0 8

/-- The instruction at the head of a list of bytes, and the bytes after it. -/
def decodeBytes : List Byte → Except DecodeError (Instr × List Byte)
  | hi :: lo :: rest =>
    match decode (wordOfBytes hi lo) with
    | .ok i => .ok (i, rest)
    | .error e => .error e
  | _ => .error .truncated

/-- A register index or row count as its 4-bit field (R66). -/
def nibble (k : Fin 16) : BitVec 4 := BitVec.ofFin k

/-- Format A: literal N3, `NNN` (R66). -/
def formatA (n3 : BitVec 4) (nnn : BitVec 12) : Word := n3 ++ nnn

/-- Format I: literal N3, `X`, `NN` (R66). -/
def formatI (n3 : BitVec 4) (x : RegIdx) (nn : Byte) : Word := n3 ++ nibble x ++ nn

/-- Format R: literal N3, `X`, `Y`, function nibble (R66). -/
def formatR (n3 : BitVec 4) (x y : RegIdx) (f : BitVec 4) : Word :=
  n3 ++ nibble x ++ nibble y ++ f

/-- Format D: literal D, `X`, `Y`, `N` (R66). -/
def formatD (x y : RegIdx) (n : Fin 16) : Word :=
  0xD#4 ++ nibble x ++ nibble y ++ nibble n

/-- Format S: literal N3, `X`, function byte (R66). -/
def formatS (n3 : BitVec 4) (x : RegIdx) (f : Byte) : Word := n3 ++ nibble x ++ f

/-- The word of an instruction (R66, R70). -/
def encode : Instr → Word
  | .op00E0 => 0x00E0
  | .op00EE => 0x00EE
  | .op1NNN nnn => formatA 0x1 nnn
  | .op2NNN nnn => formatA 0x2 nnn
  | .op3XNN x nn => formatI 0x3 x nn
  | .op4XNN x nn => formatI 0x4 x nn
  | .op5XY0 x y => formatR 0x5 x y 0x0
  | .op6XNN x nn => formatI 0x6 x nn
  | .op7XNN x nn => formatI 0x7 x nn
  | .op8XY0 x y => formatR 0x8 x y 0x0
  | .op8XY1 x y => formatR 0x8 x y 0x1
  | .op8XY2 x y => formatR 0x8 x y 0x2
  | .op8XY3 x y => formatR 0x8 x y 0x3
  | .op8XY4 x y => formatR 0x8 x y 0x4
  | .op8XY5 x y => formatR 0x8 x y 0x5
  | .op8XY6 x y => formatR 0x8 x y 0x6
  | .op8XY7 x y => formatR 0x8 x y 0x7
  | .op8XYE x y => formatR 0x8 x y 0xE
  | .op9XY0 x y => formatR 0x9 x y 0x0
  | .opANNN nnn => formatA 0xA nnn
  | .opBNNN nnn => formatA 0xB nnn
  | .opCXNN x nn => formatI 0xC x nn
  | .opDXYN x y n => formatD x y n
  | .opEX9E x => formatS 0xE x 0x9E
  | .opEXA1 x => formatS 0xE x 0xA1
  | .opFX07 x => formatS 0xF x 0x07
  | .opFX0A x => formatS 0xF x 0x0A
  | .opFX15 x => formatS 0xF x 0x15
  | .opFX18 x => formatS 0xF x 0x18
  | .opFX1E x => formatS 0xF x 0x1E
  | .opFX29 x => formatS 0xF x 0x29
  | .opFX33 x => formatS 0xF x 0x33
  | .opFX55 x => formatS 0xF x 0x55
  | .opFX65 x => formatS 0xF x 0x65

/-- The two bytes of an instruction, the lower address first (R41). -/
def encodeBytes (i : Instr) : List Byte := [highByte (encode i), lowByte (encode i)]

/-- The bytes in memory of an instruction word numbered as the opcode table numbers it: its `nbits`
low bits are `w`'s, the bits above are zero, and the high byte lies first (R41). -/
def tableBytes (nbits w : Nat) : List Byte :=
  [highByte (BitVec.ofNat 16 (w % 2 ^ nbits)), lowByte (BitVec.ofNat 16 (w % 2 ^ nbits))]

/-- The instruction the decoder reads from a word numbered as the opcode table numbers it. -/
def decodeTableWord (nbits w : Nat) : Option Instr :=
  match decodeBytes (tableBytes nbits w) with
  | .ok (i, _) => some i
  | .error _ => none

end Sys2Proof
end

