-- ==== Sys2Proof/Config.lean ====
section
/-! DEFINITION. What is fixed for the machine: the constants of R4, the form of the open parameters
of R5, and the free value of CXNN. -/

namespace Sys2Proof

/-- Bytes of memory (R4, R24). -/
@[simp] def Config.memSize : Nat := 4096

/-- First address of the font block (R4, R26). -/
@[simp] def Config.fontBase : Nat := 0x050

/-- Bytes of the font block (R4, R26). -/
@[simp] def Config.fontLen : Nat := 80

/-- Load address of a program and reset value of `pc` (R4, R14). -/
@[simp] def Config.progBase : Nat := 0x200

/-- Greatest length `load` accepts (R4, R207). -/
@[simp] def Config.maxRom : Nat := 3584

/-- The 80 font bytes: glyphs 0 to F of five rows each (R5 `FONT`, R26). -/
abbrev Config.Font := Vector Byte 80

/-- The open parameters of R5 that a machine fixes and no operation changes, as plain data.
DESIGN CHOICE (log entries 2, 3 and 4): they stand in State, so that a statement about every state holds
for every choice of them. -/
structure Config.Params where
  /-- `FONT`: the bytes of [0x050, 0x0A0) at reset (R5, R26). -/
  font : Config.Font
  /-- `SHIFT_USES_VY`: `8XY6` and `8XYE` shift `v[Y]` (true) or `v[X]` (false) (R5, R127, R129). -/
  shiftUsesVY : Bool
  /-- `KEYWAIT_SELECT` as a table: the key reported for a set of pressed keys, the set written as its
  ascending list; a set that is not listed has its least member reported (R5, R161). -/
  keySelect : List (List KeyIdx × KeyIdx)
  deriving DecidableEq, Repr

/-- The free input byte of the `n`th executed `CXNN` (R5 `random_byte`, R139): nothing constrains it,
so a statement that holds of the model holds for every sequence of draws. DESIGN CHOICE (log entry
1): its argument is a counter in State. -/
opaque Config.randomByte : Nat → Byte

end Sys2Proof
end

