-- ==== Sys2Proof/Machine/Defaults.lean ====
section
/-! DEFINITION. The defaults of R5's open parameters, the font bytes of R26 among them; and what an
address of memory reads as after reset, for any font (R25). -/

namespace Sys2Proof.Machine

/-- R26's default table, glyphs 0 to F of five rows each.
DESIGN CHOICE (log entry 2): the machine after reset has the spec's default for FONT. -/
def defaultFont : Config.Font := Vector.mk (List.toArray (
  [0xF0, 0x90, 0x90, 0x90, 0xF0] ++ [0x20, 0x60, 0x20, 0x20, 0x70] ++
  [0xF0, 0x10, 0xF0, 0x80, 0xF0] ++ [0xF0, 0x10, 0xF0, 0x10, 0xF0] ++
  [0x90, 0x90, 0xF0, 0x10, 0x10] ++ [0xF0, 0x80, 0xF0, 0x10, 0xF0] ++
  [0xF0, 0x80, 0xF0, 0x90, 0xF0] ++ [0xF0, 0x10, 0x20, 0x40, 0x40] ++
  [0xF0, 0x90, 0xF0, 0x90, 0xF0] ++ [0xF0, 0x90, 0xF0, 0x10, 0xF0] ++
  [0xF0, 0x90, 0xF0, 0x90, 0x90] ++ [0xE0, 0x90, 0xE0, 0x90, 0xE0] ++
  [0xF0, 0x80, 0x80, 0x80, 0xF0] ++ [0xE0, 0x90, 0x90, 0x90, 0xE0] ++
  [0xF0, 0x80, 0xF0, 0x80, 0xF0] ++ [0xF0, 0x80, 0xF0, 0x80, 0x80])) rfl

/-- What an address that memory does not list reads as: its reset value, the font's byte in
[0x050, 0x0A0) and 0 elsewhere (R25, R220). -/
def resetByte (font : Config.Font) (a : Nat) : Byte :=
  if Config.fontBase ≤ a then font.getD (a - Config.fontBase) 0 else 0

/-- R5's defaults: R26's table, `SHIFT_USES_VY` false, `KEYWAIT_SELECT` the least index.
DESIGN CHOICE (log entries 2, 3 and 4): the machine after reset has the spec's defaults. -/
def defaultParams : Config.Params := ⟨defaultFont, false, []⟩

end Sys2Proof.Machine
end

