-- ==== Sys2Proof/Machine/State.lean ====
section
/-! DEFINITION. The machine's state (R34), the faults it latches (R180, R194), and reset (R220). -/

namespace Sys2Proof.Machine

/-- The four causes of a fault (R180), the `cause` of a latched fault record. In this model they are
never an `Outcome.fault`: the spec says what raising one does to the state (R184), so the step that
raises one answers a NEXT state with the latch set. -/
inductive Fault where
  /-- Raised by the fetch of a step whose `pc + 1` is 4096 or more (R86), and by `DXYN`, `FX33`,
  `FX55`, `FX65` with a byte at 4096 or above (R181). Safe: nothing more runs after it. -/
  | memoryOutOfBounds
  /-- Raised by `2NNN` when sixteen return addresses are held (R103, R182). Safe: nothing more runs
  after it. -/
  | stackOverflow
  /-- Raised by `00EE` when no return address is held (R101, R182). Safe: nothing more runs after it. -/
  | stackUnderflow
  /-- Raised by the decode of a word that is none of the 34 instructions (R90, R183). Safe: nothing
  more runs after it. -/
  | unknownOpcode
  deriving DecidableEq, Repr

/-- Why a step would have no meaning. No meaning of this model refuses. -/
inductive Refusal where
  /-- The instruction of that mnemonic has no meaning yet. Raised by no arm of `exec` any more. Safe:
  the machine stops. -/
  | notModelled (mnemonic : String)
  deriving DecidableEq, Repr

/-- A fault record (R194). -/
structure FaultRecord where
  /-- the cause, code 1 to 4 of R180 -/
  cause : Fault
  /-- the address of the instruction whose step faulted -/
  faultPc : Word
  /-- the fetched word, 0 when the fetch itself faulted -/
  faultOp : Word
  /-- the lowest out-of-range address of a `memoryOutOfBounds`, at most 65550; 0 for other causes -/
  faultAddr : Nat
  deriving DecidableEq, Repr

/-- Memory as the bytes that differ from what reset leaves, addresses strictly rising
(`Memory.wf` says so). DESIGN CHOICE (log entry 7). -/
abbrev Memory := List Host.Cell

/-- The display: 32 rows of 64 one-bit cells (R28). DESIGN CHOICE (log entry 7): cell `(x, y)` is bit
`x` of row `y`. -/
abbrev Framebuffer := Vector (BitVec 64) 32

/-- Everything the spec gives the machine (R34), and the model's own `params` and `draws`. -/
structure State where
  /-- `v[0..15]`, the general registers; `v[15]` is also the flag (R10, R11) -/
  v : Vector Byte 16
  /-- the index register (R20) -/
  i : Word
  /-- the program counter (R14) -/
  pc : Word
  /-- the count of stack entries, 0 to 16 (R19) -/
  sp : Fin 17
  /-- the return-address stack, oldest first; cells at `sp` and above are not part of it (R19) -/
  stack : Vector Word 16
  /-- `delay_timer` (R22) -/
  delayTimer : Byte
  /-- `sound_timer` (R23) -/
  soundTimer : Byte
  /-- the 4096 bytes of memory (R24) -/
  mem : Memory
  /-- the framebuffer (R28) -/
  fb : Framebuffer
  /-- `key[0..15]`: true is pressed (R31) -/
  key : Vector Bool 16
  /-- the redraw signal (R30) -/
  redraw : Bool
  /-- the fault latch (R32) -/
  fault : Option FaultRecord
  /-- the model's own: the open parameters of R5, which nothing changes (log entries 2, 3 and 4) -/
  params : Config.Params
  /-- the model's own: how many free bytes `CXNN` has taken (log entry 1) -/
  draws : Nat
  deriving DecidableEq, Repr

/-- The machine right after reset, built with these open parameters (R34, R220). Memory lists nothing:
every byte is at its reset value, FONT in [0x050, 0x0A0) (R25). -/
def State.resetWith (params : Config.Params) : State where
  v := Vector.replicate 16 0
  i := 0
  pc := 0x0200
  sp := 0
  stack := Vector.replicate 16 0
  delayTimer := 0
  soundTimer := 0
  mem := []
  fb := Vector.replicate 32 0
  key := Vector.replicate 16 false
  redraw := false
  fault := none
  params := params
  draws := 0

/-- The machine right after reset, with R5's defaults. -/
def State.reset : State := State.resetWith defaultParams

end Sys2Proof.Machine
end

