-- ==== Sys2Proof/Machine/Ops.lean ====
section
/-! DEFINITION. The named operations over registers, memory, stack, framebuffer and the fault latch,
and the fetch. Inside an instruction `pc` is already advanced past it (R7, R87). -/

namespace Sys2Proof.Machine

/-- Run `body 0`, then `body 1`, up to `body (n - 1)`: the `for` of the spec's pseudocode. -/
def forEach {σ : Type} (n : Nat) (body : Nat → σ → σ) (s : σ) : σ :=
  match n with
  | 0 => s
  | n + 1 => body n (forEach n body s)

/-- `v[k]` (R10). -/
def State.reg (s : State) (k : RegIdx) : Byte := s.v[k.val]

/-- `v[k] <- b` (R10). -/
def State.setReg (s : State) (k : RegIdx) (b : Byte) : State := { s with v := s.v.set k.val b }

/-- The byte a memory holds at an address: what it lists, else the reset value under the machine's
font (R24, R25). -/
def Memory.read (m : Memory) (font : Config.Font) (a : Nat) : Byte :=
  match m with
  | [] => resetByte font a
  | (a', b) :: m' => if a' = a then b else Memory.read m' font a

/-- `mem[a]`, the byte that `MemRead` answers for an address in range (R44). -/
def State.read (s : State) (a : Nat) : Byte := s.mem.read s.params.font a

/-- `mem[a] <- b`, kept canonical: rising addresses, no entry equal to its reset value (R45). -/
def Memory.write (m : Memory) (font : Config.Font) (a : Nat) (b : Byte) : Memory :=
  match m with
  | [] => if b = resetByte font a then [] else [(a, b)]
  | (a', b') :: m' =>
    if a < a' then (if b = resetByte font a then (a', b') :: m' else (a, b) :: (a', b') :: m')
    else if a = a' then (if b = resetByte font a then m' else (a, b) :: m')
    else (a', b') :: Memory.write m' font a b

/-- Canonical from address `lo` upward: addresses strictly rising from `lo`, all below 4096, no entry
equal to what the address reads as when it is not listed. -/
def Memory.wfFrom (font : Config.Font) (lo : Nat) : Memory → Bool
  | [] => true
  | (a, b) :: m =>
    decide (lo ≤ a) && decide (a < Config.memSize) && decide (b ≠ resetByte font a) &&
      Memory.wfFrom font (a + 1) m

/-- The canonical form of memory: equal memories are equal lists. -/
def Memory.wf (m : Memory) (font : Config.Font) : Bool := Memory.wfFrom font 0 m

/-- The lowest of the `count` addresses from `base` upward that is 4096 or more, if one is: the bounds
check of `MemRead` and `MemWrite` (R44, R45) for all the bytes of an instruction at once. The sum is
unbounded: no address wraps (R46, R47). -/
def firstOut (base count : Nat) : Option Nat :=
  if count = 0 ∨ base + count ≤ Config.memSize then none else some (max base Config.memSize)

/-- The codes of the four causes (R180). -/
def Fault.code : Fault → Nat
  | .memoryOutOfBounds => 1
  | .stackOverflow => 2
  | .stackUnderflow => 3
  | .unknownOpcode => 4

/-- Set the fault latch and change nothing else; `pc` is at the instruction that faults (R184, R194). -/
def State.latchFault (s : State) (cause : Fault) (op : Word) (addr : Nat) : State :=
  { s with fault := some ⟨cause, s.pc, op, addr⟩ }

/-- The step's advance: `pc <- (pc + 2) mod 65536`, before dispatch (R87). -/
def State.advance (s : State) : State := { s with pc := s.pc + 2 }

/-- `pc` back at the instruction itself: the advance undone. -/
def State.retreat (s : State) : State := { s with pc := s.pc - 2 }

/-- Taking a fault after the advance: every write of the step, the advance of `pc` included, is
discarded, and the latch is set (R184). -/
def State.raise (s : State) (cause : Fault) (op : Word) (addr : Nat) : State :=
  s.retreat.latchFault cause op addr

/-- An instruction that touches the `count` bytes from `i` upward: all of them are checked first, the
lowest one out of range is the fault's address, and then nothing else happens (R47, R181). -/
def State.accessing (s : State) (op : Word) (count : Nat) (done : State) :
    Host.Outcome State Fault Refusal :=
  match firstOut s.i.toNat count with
  | some addr => .next (s.raise .memoryOutOfBounds op addr)
  | none => .next done

/-- `push(e)`: nothing when 16 entries are held (R17). -/
def State.push (s : State) (e : Word) : Option State :=
  if h : s.sp.val < 16 then
    some { s with stack := s.stack.set s.sp.val e, sp := ⟨s.sp.val + 1, by omega⟩ }
  else none

/-- `pop()`: nothing when no entry is held; the popped cell keeps its value (R18). -/
def State.pop (s : State) : Option (Word × State) :=
  if h : 0 < s.sp.val then
    some (s.stack[s.sp.val - 1]'(by omega), { s with sp := ⟨s.sp.val - 1, by omega⟩ })
  else none

/-- `pc <- pc + 2` if the condition holds: a skip (R97). -/
def State.skipIf (s : State) (c : Bool) : State := { s with pc := if c then s.pc + 2 else s.pc }

/-- Cell `(x, y)` of the framebuffer: true is lit (R28). -/
def Framebuffer.cell (fb : Framebuffer) (x : Fin 64) (y : Fin 32) : Bool := fb[y.val].getLsbD x.val

/-- `fb[x, y] <- fb[x, y] ^ 1` (R145). -/
def Framebuffer.toggle (fb : Framebuffer) (x : Fin 64) (y : Fin 32) : Framebuffer :=
  fb.set y.val (fb[y.val] ^^^ (1#64 <<< x.val))

/-- Every cell 0 (R100). -/
def Framebuffer.clear : Framebuffer := Vector.replicate 32 0

/-- The fetch (R86): both bytes at `pc` and `pc + 1`, the lower address first (R41), at any parity
(R43); or the lowest address of the two that is out of range. The check comes before either read. -/
def State.fetch (s : State) : Except Nat Word :=
  match firstOut s.pc.toNat 2 with
  | some addr => .error addr
  | none => .ok (wordOfBytes (s.read s.pc.toNat) (s.read (s.pc.toNat + 1)))

/-- Fetch and decode (R86, R88): the instruction at `pc`, or the state in which the fault of the fetch
or of the decode is latched, `pc` at the instruction (R90, R184). -/
def State.fetchInstr (s : State) : Except State Instr :=
  match s.fetch with
  | .error addr => .error (s.latchFault .memoryOutOfBounds 0 addr)
  | .ok op =>
    match decode op with
    | .ok i => .ok i
    | .error _ => .error (s.latchFault .unknownOpcode op 0)

/-- `mem[base + k] <- bytes[k]` for every `k` (R207). -/
def Memory.writeBytes (m : Memory) (font : Config.Font) (base : Nat) : List Byte → Memory
  | [] => m
  | b :: bs => Memory.writeBytes (m.write font base b) font (base + 1) bs

end Sys2Proof.Machine
end

