-- ==== Sys2Proof/Machine/Flags.lean ====
section
/-! DEFINITION. Every computation of the flag `v[15]` (R13): carry, no borrow, bit shifted out,
collision. Each answers the result and the flag. -/

namespace Sys2Proof.Machine

/-- A flag as the byte 0x00 or 0x01 (R13, R120). -/
def flagByte (c : Bool) : Byte := if c then 1 else 0

/-- Add with the carry out of bit 7; no carry in (R125). -/
def addCarry (a b : Byte) : Byte × Byte :=
  let sum := a.toNat + b.toNat
  (BitVec.ofNat 8 sum, flagByte (decide (sum > 255)))

/-- Subtract; the flag is 1 when no borrow occurred, equal operands included (R126, R128). -/
def subNoBorrow (a b : Byte) : Byte × Byte := (a - b, flagByte (decide (b.toNat ≤ a.toNat)))

/-- Logical shift right by one and the bit shifted out (R127). -/
def shiftRight (src : Byte) : Byte × Byte := (src >>> 1, flagByte (src.getLsbD 0))

/-- Shift left by one and the bit shifted out (R129). -/
def shiftLeft (src : Byte) : Byte × Byte := (src <<< 1, flagByte (src.getLsbD 7))

/-- `v[X] <- result`, then `v[15] <- flag`: the flag is the last write, so it survives when `X` is 15
(R120). -/
def State.setResult (s : State) (x : RegIdx) (p : Byte × Byte) : State :=
  (s.setReg x p.1).setReg 15 p.2

/-- One bit of a sprite row at column `x0 + b` and row `y0 + r`, each wrapped on its own axis: the
cell is inverted where the sprite bit is 1, and a cell that was lit is a collision (R145, R147). -/
def drawBit (byte : Byte) (x y : Nat) (b : Nat) (p : Framebuffer × Bool) : Framebuffer × Bool :=
  if byte.getLsbD (7 - b) then
    let cx := Fin.ofNat 64 (x + b)
    let cy := Fin.ofNat 32 y
    (p.1.toggle cx cy, p.2 || p.1.cell cx cy)
  else p

/-- The eight bits of a sprite row, the most significant first (R145). -/
def drawRow (byte : Byte) (x y : Nat) (p : Framebuffer × Bool) : Framebuffer × Bool :=
  forEach 8 (drawBit byte x y) p

/-- The `n` rows of a sprite, row `r` the byte that `row` answers for it, drawn from `(x0, y0)`: the
framebuffer and whether a lit cell was turned off (R145). -/
def drawSprite (row : Nat → Byte) (n x0 y0 : Nat) (fb : Framebuffer) : Framebuffer × Bool :=
  forEach n (fun r p => drawRow (row r) x0 (y0 + r) p) (fb, false)

end Sys2Proof.Machine
end

