-- ==== Sys2Proof/Machine/Operands.lean ====
section
/-! DEFINITION. Every operand form: the zero-extended address, the shift's source, the key and glyph
numbers of a register, the decimal digits, the pressed keys and the choice among them. -/

namespace Sys2Proof.Machine

/-- `zext_16(NNN)` (R67). -/
def zextNNN (nnn : BitVec 12) : Word := nnn.setWidth 16

/-- `zext_16(v[X])` (R138, R164). -/
def zextByte (b : Byte) : Word := b.setWidth 16

/-- The low nibble of a register value: the key it selects (R157) or the glyph (R165). -/
def lowNibble (b : Byte) : Fin 16 := (b.extractLsb' 0 4).toFin

/-- The operand of a shift: `v[Y]` if `SHIFT_USES_VY`, else `v[X]` (R127, R129). -/
def State.shiftSource (s : State) (x y : RegIdx) : Byte :=
  if s.params.shiftUsesVY then s.reg y else s.reg x

/-- The address of the glyph of a register value: `0x050 + 5 * d` (R165). -/
def glyphAddress (b : Byte) : Word := BitVec.ofNat 16 (Config.fontBase + 5 * (lowNibble b).val)

/-- The hundreds digit (R166). -/
def hundreds (b : Byte) : Byte := BitVec.ofNat 8 (b.toNat / 100)

/-- The tens digit (R166). -/
def tens (b : Byte) : Byte := BitVec.ofNat 8 (b.toNat / 10 % 10)

/-- The ones digit (R166). -/
def ones (b : Byte) : Byte := BitVec.ofNat 8 (b.toNat % 10)

/-- The keys, ascending. -/
def allKeys : List KeyIdx := [0, 1, 2, 3, 4, 5, 6, 7, 8, 9, 10, 11, 12, 13, 14, 15]

/-- `key[k] = 1` (R31). -/
def State.keyDown (s : State) (k : KeyIdx) : Bool := s.key[k.val]

/-- The set of keys pressed now, ascending (R161). -/
def State.pressedKeys (s : State) : List KeyIdx := allKeys.filter s.keyDown

/-- `KEYWAIT_SELECT`: the key the table gives for the set, if it is a member of it, else the least
member; none only of the empty set (R5, R161, log entry 4). -/
def selectKey (table : List (List KeyIdx × KeyIdx)) (pressed : List KeyIdx) : Option KeyIdx :=
  match table.lookup pressed with
  | some k => if k ∈ pressed then some k else pressed.head?
  | none => pressed.head?

/-- The key `FX0A` reports, if one is pressed (R161). -/
def State.selectedKey (s : State) : Option KeyIdx := selectKey s.params.keySelect s.pressedKeys

/-- A key index as the byte `FX0A` writes, 0 to 15 (R161). -/
def keyByte (k : KeyIdx) : Byte := BitVec.ofNat 8 k.val

end Sys2Proof.Machine
end

