-- ==== Sys2Proof/Machine/Alu.lean ====
section
/-! DEFINITION. Family 8: register-register operations (spec file 44). Operands are read before any
write; the flag, where there is one, is written last (R120). -/

namespace Sys2Proof.Machine

/-- `8XY0`: `v[X] <- v[Y]`, no flag (R121). -/
def exec8XY0 (x y : RegIdx) (s : State) : Host.Outcome State Fault Refusal :=
  .next (s.setReg x (s.reg y))

/-- `8XY1`: bitwise OR, no flag (R122). -/
def exec8XY1 (x y : RegIdx) (s : State) : Host.Outcome State Fault Refusal :=
  .next (s.setReg x (s.reg x ||| s.reg y))

/-- `8XY2`: bitwise AND, no flag (R123). -/
def exec8XY2 (x y : RegIdx) (s : State) : Host.Outcome State Fault Refusal :=
  .next (s.setReg x (s.reg x &&& s.reg y))

/-- `8XY3`: bitwise exclusive OR, no flag (R124). -/
def exec8XY3 (x y : RegIdx) (s : State) : Host.Outcome State Fault Refusal :=
  .next (s.setReg x (s.reg x ^^^ s.reg y))

/-- `8XY4`: add, `v[15]` the carry out (R125). -/
def exec8XY4 (x y : RegIdx) (s : State) : Host.Outcome State Fault Refusal :=
  .next (s.setResult x (addCarry (s.reg x) (s.reg y)))

/-- `8XY5`: `v[X] - v[Y]`, `v[15]` = no borrow (R126). -/
def exec8XY5 (x y : RegIdx) (s : State) : Host.Outcome State Fault Refusal :=
  .next (s.setResult x (subNoBorrow (s.reg x) (s.reg y)))

/-- `8XY6`: shift right by one, `v[15]` the bit shifted out (R127). -/
def exec8XY6 (x y : RegIdx) (s : State) : Host.Outcome State Fault Refusal :=
  .next (s.setResult x (shiftRight (s.shiftSource x y)))

/-- `8XY7`: `v[Y] - v[X]`, `v[15]` = no borrow (R128). -/
def exec8XY7 (x y : RegIdx) (s : State) : Host.Outcome State Fault Refusal :=
  .next (s.setResult x (subNoBorrow (s.reg y) (s.reg x)))

/-- `8XYE`: shift left by one, `v[15]` the bit shifted out (R129). -/
def exec8XYE (x y : RegIdx) (s : State) : Host.Outcome State Fault Refusal :=
  .next (s.setResult x (shiftLeft (s.shiftSource x y)))

end Sys2Proof.Machine
end

