-- ==== Sys2Proof/Machine/Draw.lean ====
section
/-! DEFINITION. Family D: draw a sprite and detect a collision (spec file 46). -/

namespace Sys2Proof.Machine

/-- `DXYN`: the coordinates are read before `v[15]` is written, all rows are checked before anything
changes, `v[15]` is the collision flag, a redraw is requested whatever changed (R145 to R151). -/
def execDXYN (x y : RegIdx) (n : Fin 16) (s : State) : Host.Outcome State Fault Refusal :=
  let drawn := drawSprite (fun r => s.read (s.i.toNat + r)) n.val ((s.reg x).toNat % 64)
    ((s.reg y).toNat % 32) s.fb
  s.accessing (encode (.opDXYN x y n)) n.val
    { (s.setReg 15 (flagByte drawn.2)) with fb := drawn.1, redraw := true }

end Sys2Proof.Machine
end

