-- ==== Sys2Proof/Machine/Flow.lean ====
section
/-! DEFINITION. Families 0, 1, 2: clear, return, jump, call (spec file 41). `s.pc` is the address after
the instruction. -/

namespace Sys2Proof.Machine

/-- `00E0`: every cell 0, and a redraw is requested even if all were 0 before (R100). -/
def exec00E0 (s : State) : Host.Outcome State Fault Refusal :=
  .next { s with fb := Framebuffer.clear, redraw := true }

/-- `00EE`: `pc <- pop()`, or `StackUnderflow` (R101). -/
def exec00EE (s : State) : Host.Outcome State Fault Refusal :=
  match s.pop with
  | some (a, t) => .next { t with pc := a }
  | none => .next (s.raise .stackUnderflow (encode .op00EE) 0)

/-- `1NNN`: `pc <- NNN`, unchecked (R102). -/
def exec1NNN (nnn : BitVec 12) (s : State) : Host.Outcome State Fault Refusal :=
  .next { s with pc := zextNNN nnn }

/-- `2NNN`: `push(pc)` with the advanced `pc`, then `pc <- NNN`; or `StackOverflow` (R103). -/
def exec2NNN (nnn : BitVec 12) (s : State) : Host.Outcome State Fault Refusal :=
  match s.push s.pc with
  | some t => .next { t with pc := zextNNN nnn }
  | none => .next (s.raise .stackOverflow (encode (.op2NNN nnn)) 0)

end Sys2Proof.Machine
end

