-- ==== Sys2Proof/Machine/Immediate.lean ====
section
/-! DEFINITION. Families 6, 7: load and add an immediate, no flag (spec file 43). -/

namespace Sys2Proof.Machine

/-- `6XNN`: `v[X] <- NN` (R115). -/
def exec6XNN (x : RegIdx) (nn : Byte) (s : State) : Host.Outcome State Fault Refusal :=
  .next (s.setReg x nn)

/-- `7XNN`: `v[X] <- (v[X] + NN) mod 256`, no carry flag (R116). -/
def exec7XNN (x : RegIdx) (nn : Byte) (s : State) : Host.Outcome State Fault Refusal :=
  .next (s.setReg x (s.reg x + nn))

end Sys2Proof.Machine
end

