-- ==== Sys2Proof/Machine/IndexJumpRandom.lean ====
section
/-! DEFINITION. Families 9, A, B, C: skip if registers differ, load index, jump with offset, random
byte (spec file 45). -/

namespace Sys2Proof.Machine

/-- `9XY0`: skip if `v[X] != v[Y]` (R135). -/
def exec9XY0 (x y : RegIdx) (s : State) : Host.Outcome State Fault Refusal :=
  .next (s.skipIf (s.reg x != s.reg y))

/-- `ANNN`: `i <- NNN` (R137). -/
def execANNN (nnn : BitVec 12) (s : State) : Host.Outcome State Fault Refusal :=
  .next { s with i := zextNNN nnn }

/-- `BNNN`: `pc <- (NNN + v[0]) mod 65536`, not masked to 12 bits (R138). -/
def execBNNN (nnn : BitVec 12) (s : State) : Host.Outcome State Fault Refusal :=
  .next { s with pc := zextNNN nnn + zextByte (s.reg 0) }

/-- `CXNN`: `v[X] <- draw_byte() & NN`, a fresh free byte each time (R139, log entry 1). -/
def execCXNN (x : RegIdx) (nn : Byte) (s : State) : Host.Outcome State Fault Refusal :=
  .next { (s.setReg x (Config.randomByte s.draws &&& nn)) with draws := s.draws + 1 }

end Sys2Proof.Machine
end

