-- ==== Sys2Proof/Machine/Keys.lean ====
section
/-! DEFINITION. Family E: skip on the level of the key that a register's low nibble selects (spec
file 47, R157). -/

namespace Sys2Proof.Machine

/-- `EX9E`: skip if the key is pressed (R155). -/
def execEX9E (x : RegIdx) (s : State) : Host.Outcome State Fault Refusal :=
  .next (s.skipIf (s.keyDown (lowNibble (s.reg x))))

/-- `EXA1`: skip if the key is not pressed (R156). -/
def execEXA1 (x : RegIdx) (s : State) : Host.Outcome State Fault Refusal :=
  .next (s.skipIf (!s.keyDown (lowNibble (s.reg x))))

end Sys2Proof.Machine
end

