-- ==== Sys2Proof/Machine/Skips.lean ====
section
/-! DEFINITION. Families 3, 4, 5: conditional skips (spec file 42). A skip adds 2 to the advanced `pc`;
the skipped bytes are not read. -/

namespace Sys2Proof.Machine

/-- `3XNN`: skip if `v[X] = NN` (R110). -/
def exec3XNN (x : RegIdx) (nn : Byte) (s : State) : Host.Outcome State Fault Refusal :=
  .next (s.skipIf (s.reg x == nn))

/-- `4XNN`: skip if `v[X] != NN` (R111). -/
def exec4XNN (x : RegIdx) (nn : Byte) (s : State) : Host.Outcome State Fault Refusal :=
  .next (s.skipIf (s.reg x != nn))

/-- `5XY0`: skip if `v[X] = v[Y]` (R112). -/
def exec5XY0 (x y : RegIdx) (s : State) : Host.Outcome State Fault Refusal :=
  .next (s.skipIf (s.reg x == s.reg y))

end Sys2Proof.Machine
end

