-- ==== Sys2Proof/Machine/TimersKeysMemory.lean ====
section
/-! DEFINITION. Family F: timers, key wait, index arithmetic, font address, decimal digits, register
block store and load (spec file 48). -/

namespace Sys2Proof.Machine

/-- `FX07`: `v[X] <- delay_timer` (R160). -/
def execFX07 (x : RegIdx) (s : State) : Host.Outcome State Fault Refusal :=
  .next (s.setReg x s.delayTimer)

/-- `FX0A`: with no key pressed `pc` goes back to the instruction and nothing has changed; else
`v[X]` takes the selected key's index (R161). -/
def execFX0A (x : RegIdx) (s : State) : Host.Outcome State Fault Refusal :=
  match s.selectedKey with
  | none => .next s.retreat
  | some k => .next (s.setReg x (keyByte k))

/-- `FX15`: `delay_timer <- v[X]` (R162). -/
def execFX15 (x : RegIdx) (s : State) : Host.Outcome State Fault Refusal :=
  .next { s with delayTimer := s.reg x }

/-- `FX18`: `sound_timer <- v[X]` (R163). -/
def execFX18 (x : RegIdx) (s : State) : Host.Outcome State Fault Refusal :=
  .next { s with soundTimer := s.reg x }

/-- `FX1E`: `i <- (i + v[X]) mod 65536`, no flag (R164). -/
def execFX1E (x : RegIdx) (s : State) : Host.Outcome State Fault Refusal :=
  .next { s with i := s.i + zextByte (s.reg x) }

/-- `FX29`: `i <- 0x050 + 5 * (v[X] & 0x0F)` (R165). -/
def execFX29 (x : RegIdx) (s : State) : Host.Outcome State Fault Refusal :=
  .next { s with i := glyphAddress (s.reg x) }

/-- `FX33`: hundreds, tens and ones of `v[X]` at `i`, `i + 1`, `i + 2` (R166). -/
def execFX33 (x : RegIdx) (s : State) : Host.Outcome State Fault Refusal :=
  let n := s.reg x
  s.accessing (encode (.opFX33 x)) 3
    { s with mem := s.mem.writeBytes s.params.font s.i.toNat [hundreds n, tens n, ones n] }

/-- `FX55`: `mem[i + k] <- v[k]` for `k` from 0 to `X`; `i` unchanged (R167). -/
def execFX55 (x : RegIdx) (s : State) : Host.Outcome State Fault Refusal :=
  let stored := forEach (x.val + 1)
    (fun k m => Memory.write m s.params.font (s.i.toNat + k) (s.reg (Fin.ofNat 16 k))) s.mem
  s.accessing (encode (.opFX55 x)) (x.val + 1) { s with mem := stored }

/-- `FX65`: `v[k] <- mem[i + k]` for `k` from 0 to `X`; `i` unchanged (R168). -/
def execFX65 (x : RegIdx) (s : State) : Host.Outcome State Fault Refusal :=
  let loaded := forEach (x.val + 1)
    (fun k v => Vector.set v (Fin.ofNat 16 k).val (s.read (s.i.toNat + k))) s.v
  s.accessing (encode (.opFX65 x)) (x.val + 1) { s with v := loaded }

end Sys2Proof.Machine
end

