-- ==== Sys2Proof/Machine/Step.lean ====
section
/-! DEFINITION. The step of R85: the latch first, then the fetch and the decode, then the instruction
with `pc` advanced. It always answers a next state: a fault is the latch set (R184), and waiting for a
key is the state unchanged (R161). What a step reports to the host is `stepReport`. -/

namespace Sys2Proof.Machine

/-- One step (R85, in R93's order of checks): nothing changes while a fault is latched (R94).
DESIGN CHOICE (log entry 5): a fault is answered as a next state. -/
def step (s : State) : Host.Outcome State Fault Refusal :=
  match s.fault with
  | some _ => .next s
  | none =>
    match s.fetchInstr with
    | .error t => .next t
    | .ok i => exec i s.advance

/-- `s` with the instruction of that word where the next step fetches: its two bytes at `pc` and
`pc + 1`, the high byte first (R41), and no fault latched, since a step fetches nothing while one is
(R94). DESIGN CHOICE (log entry 6): where `pc + 1` is 4096 or more there is no memory to hold
it, and only the latch is cleared. -/
def State.withFetchWord (s : State) (nbits w : Nat) : State :=
  match firstOut s.pc.toNat 2 with
  | some _ => { s with fault := none }
  | none =>
    { s with
      mem := s.mem.writeBytes s.params.font s.pc.toNat (tableBytes nbits w)
      fault := none }

end Sys2Proof.Machine
end

