-- ==== Sys2Proof/Machine/HostOps.lean ====
section
/-! DEFINITION. The operations the host may perform between steps (R205), one at a time (R213), and
what a step reports to the host (R92). -/

namespace Sys2Proof.Machine

/-- What a step reports (R92). -/
inductive StepReport where
  /-- the instruction ran to its end -/
  | ok
  /-- `FX0A` found no key pressed -/
  | awaitingInput
  /-- the step raised a fault, or one was latched already -/
  | fault (record : FaultRecord)
  deriving DecidableEq, Repr

/-- What `load` reports (R207). -/
inductive LoadReport where
  /-- the program was copied -/
  | ok
  /-- the program is longer than 3584 bytes; nothing was written (R186) -/
  | romTooLarge
  deriving DecidableEq, Repr

/-- The instruction at `pc` is `FX0A` and no key is pressed (R231 WAITING). -/
def State.waiting (s : State) : Bool :=
  match s.fetchInstr with
  | .ok (.opFX0A _) => s.pressedKeys.isEmpty
  | _ => false

/-- What a step from `s` that leads to `t` reports: the latched fault of `t`, else `AwaitingInput` for
an `FX0A` with no key pressed, else `Ok` (R92). -/
def stepReport (s t : State) : StepReport :=
  match t.fault with
  | some r => .fault r
  | none => if s.waiting then .awaitingInput else .ok

/-- A timer's decrement, floored at 0 (R200, R201). -/
def countdown (b : Byte) : Byte := if b = 0 then 0 else b - 1

/-- `tick_timers()`: both timers count down, whatever the control unit's condition (R200, R202). -/
def tickTimers (s : State) : State :=
  { s with delayTimer := countdown s.delayTimer, soundTimer := countdown s.soundTimer }

/-- `load(bytes)`: the bytes at 0x200 upward, or nothing at all if there are more than 3584 (R207). -/
def load (bytes : List Byte) (s : State) : State × LoadReport :=
  if bytes.length > Config.maxRom then (s, .romTooLarge)
  else ({ s with mem := s.mem.writeBytes s.params.font Config.progBase bytes }, .ok)

/-- `set_key(index, pressed)`: one key's level and nothing else (R210). -/
def setKey (k : KeyIdx) (pressed : Bool) (s : State) : State :=
  { s with key := s.key.set k.val pressed }

/-- `clear_redraw()` (R212). -/
def clearRedraw (s : State) : State := { s with redraw := false }

/-- `reset()`: every item of the spec's state at its reset value (R206, R220). DESIGN CHOICE (log
entry 8): the open parameters are the machine's own and stay; the count of free bytes goes on, so that
no draw is used twice. -/
def resetOp (s : State) : State := { State.resetWith s.params with draws := s.draws }

/-- `read_fb()` with no argument: the whole framebuffer (R205, R211). -/
def readFb (s : State) : Framebuffer := s.fb

/-- `read_fb()` with a cell index: the cell `(x, y)` at index `y * 64 + x`, lit or not (R205, R211). -/
def readFbCell (s : State) (idx : Fin 2048) : Bool :=
  s.fb.cell ⟨idx.val % 64, by omega⟩ ⟨idx.val / 64, by omega⟩

/-- `read_redraw()` (R212). -/
def readRedraw (s : State) : Bool := s.redraw

/-- `read_sound()`: `sound_timer` and `sound_active = (sound_timer != 0)` (R204). -/
def readSound (s : State) : Byte × Bool := (s.soundTimer, s.soundTimer != 0)

/-- The host's operations (R205). -/
inductive HostOp where
  | reset
  | load (bytes : List Byte)
  | step
  | tickTimers
  | setKey (k : KeyIdx) (pressed : Bool)
  | readFb
  | readFbCell (idx : Fin 2048)
  | readRedraw
  | clearRedraw
  | readSound
  deriving DecidableEq, Repr

/-- What a host operation answers (R205). -/
inductive HostResult where
  | done
  | loaded (r : LoadReport)
  | stepped (r : StepReport)
  | bit (b : Bool)
  | grid (fb : Framebuffer)
  | sound (timer : Byte) (active : Bool)
  deriving DecidableEq, Repr

/-- One host operation: the state after it and its result (R205). -/
def hostOp (op : HostOp) (s : State) : Host.Outcome (State × HostResult) Fault Refusal :=
  match op with
  | .reset => .next (resetOp s, .done)
  | .load bytes => .next ((load bytes s).1, .loaded (load bytes s).2)
  | .step =>
    match step s with
    | .next t => .next (t, .stepped (stepReport s t))
    | .fault r => .fault r
    | .refused r => .refused r
  | .tickTimers => .next (tickTimers s, .done)
  | .setKey k pressed => .next (setKey k pressed s, .done)
  | .readFb => .next (s, .grid (readFb s))
  | .readFbCell idx => .next (s, .bit (readFbCell s idx))
  | .readRedraw => .next (s, .bit (readRedraw s))
  | .clearRedraw => .next (clearRedraw s, .done)
  | .readSound => .next (s, .sound (readSound s).1 (readSound s).2)

/-- A sequence of host operations, in the order the host chooses (R213, R214). -/
def hostRun : List HostOp → State → Host.Outcome State Fault Refusal
  | [], s => .next s
  | op :: ops, s =>
    match hostOp op s with
    | .next (t, _) => hostRun ops t
    | .fault r => .fault r
    | .refused r => .refused r

end Sys2Proof.Machine
end

