-- ==== Sys2Proof/Safety.lean ====
section
/-! DEFINITION. The terms that statements use: the pieces of the state and what it is to leave all but
some of them unchanged; the conditions of R231; the invariants of the machine. -/

namespace Sys2Proof.Machine

/-- A piece of the state: one register, one byte of memory, one cell, and so on. Together they are the
whole state. -/
inductive Piece where
  | reg (k : RegIdx)
  | i
  | pc
  | sp
  | stackCell (k : Fin 16)
  | delayTimer
  | soundTimer
  | byte (a : Nat)
  | cell (x : Fin 64) (y : Fin 32)
  | key (k : KeyIdx)
  | redraw
  | fault
  | params
  | draws
  deriving DecidableEq, Repr

/-- `s` and `t` agree on the piece; a byte of memory through the model's read of one byte. -/
def Piece.same (s t : State) : Piece → Prop
  | .reg k => t.reg k = s.reg k
  | .i => t.i = s.i
  | .pc => t.pc = s.pc
  | .sp => t.sp = s.sp
  | .stackCell k => t.stack[k.val] = s.stack[k.val]
  | .delayTimer => t.delayTimer = s.delayTimer
  | .soundTimer => t.soundTimer = s.soundTimer
  | .byte a => t.read a = s.read a
  | .cell x y => t.fb.cell x y = s.fb.cell x y
  | .key k => t.key[k.val] = s.key[k.val]
  | .redraw => t.redraw = s.redraw
  | .fault => t.fault = s.fault
  | .params => t.params = s.params
  | .draws => t.draws = s.draws

/-- From `s` to `t` nothing changed but the pieces in `changed`: the frame of an instruction. -/
def OnlyChanged (changed : Piece → Prop) (s t : State) : Prop :=
  ∀ p, ¬ changed p → p.same s t

/-- R231 (a) FAULTED. -/
def State.faulted (s : State) : Bool := s.fault.isSome

/-- R231 (b) SPINNING: the instruction at `pc` is a jump to itself. -/
def State.spinning (s : State) : Bool :=
  match s.fetchInstr with
  | .ok (.op1NNN nnn) => zextNNN nnn == s.pc
  | _ => false

/-- A latched record says what R194 says of it: `pc` is at the instruction that faulted; the address
is out of range and below 65551 for `memoryOutOfBounds`, and 0 for every other cause. -/
def FaultRecord.wf (r : FaultRecord) (pc : Word) : Prop :=
  r.faultPc = pc ∧
    (r.cause = .memoryOutOfBounds → 4096 ≤ r.faultAddr ∧ r.faultAddr ≤ 65550) ∧
    (r.cause ≠ .memoryOutOfBounds → r.faultAddr = 0)

/-- The invariant of every step and host operation: memory keeps its canonical form, and a latched
fault record is R194's. -/
def State.Inv (s : State) : Prop :=
  s.mem.wf s.params.font = true ∧ ∀ r, s.fault = some r → r.wf s.pc

/-- The bounds of R16 and R101 on `pc` and on the return addresses: `pc` is at most 0x10FE, a live
return address is between 0x002 and 0x1000. -/
def State.PcBound (s : State) : Prop :=
  s.pc.toNat ≤ 0x10FE ∧
    ∀ k : Fin 16, k.val < s.sp.val → 0x002 ≤ s.stack[k.val].toNat ∧ s.stack[k.val].toNat ≤ 0x1000

/-- `s` and `t` differ at most in stack cells that hold no entry, at index `sp` and above (R19). -/
def SameButDeadStack (s t : State) : Prop :=
  t = { s with stack := t.stack } ∧ ∀ k : Fin 16, k.val < s.sp.val → t.stack[k.val] = s.stack[k.val]

/-- The outcome with its next state changed by `f`. -/
def mapNext (f : State → State) :
    Host.Outcome State Fault Refusal → Host.Outcome State Fault Refusal
  | .next t => .next (f t)
  | .fault r => .fault r
  | .refused r => .refused r

/-- `exec i s` completes as a skip that is taken exactly when `c` holds: 2 is added to the advanced
`pc`, and nothing else changes. -/
def SkipsWhen (i : Instr) (s : State) (c : Prop) : Prop :=
  ∃ t, exec i s = .next t ∧ (c → t.pc = s.pc + 2) ∧ (¬ c → t.pc = s.pc) ∧
    OnlyChanged (· = .pc) s t

/-- `exec i s` completes with `v[x]` holding `b`, and nothing else changed. -/
def WritesReg (i : Instr) (s : State) (x : RegIdx) (b : Byte) : Prop :=
  ∃ t, exec i s = .next t ∧ t.reg x = b ∧ OnlyChanged (· = .reg x) s t

/-- `exec i s` completes with `v[15]` holding the flag, the destination `v[x]` holding the result
unless it is `v[15]` itself, and nothing else changed (R120). -/
def WritesResultAndFlag (i : Instr) (s : State) (x : RegIdx) (result flag : Byte) : Prop :=
  ∃ t, exec i s = .next t ∧ t.reg 15 = flag ∧ (x ≠ 15 → t.reg x = result) ∧
    OnlyChanged (fun p => p = .reg x ∨ p = .reg 15) s t

/-- The state after a fault raised by `exec` at `s`: `pc` back at the instruction, the record latched,
nothing else changed (R184, R194). -/
def faulting (s : State) (cause : Fault) (op : Word) (addr : Nat) : State :=
  { s with pc := s.pc - 2, fault := some ⟨cause, s.pc - 2, op, addr⟩ }

/-- The set `S` of R148: cell `(cx, cy)` is under a 1 bit of the `n`-row sprite at `i`, drawn from
`(v[x] mod 64, v[y] mod 32)`, each axis wrapped by itself. -/
def UnderSprite (s : State) (x y : RegIdx) (n : Fin 16) (cx : Fin 64) (cy : Fin 32) : Prop :=
  ∃ r b : Nat, r < n.val ∧ b < 8 ∧ (s.read (s.i.toNat + r)).getLsbD (7 - b) = true ∧
    cx.val = ((s.reg x).toNat % 64 + b) % 64 ∧ cy.val = ((s.reg y).toNat % 32 + r) % 32

/-- How many bytes from `i` upward an instruction touches (R47). -/
def bytesTouched : Instr → Nat
  | .opDXYN _ _ n => n.val
  | .opFX33 _ => 3
  | .opFX55 x => x.val + 1
  | .opFX65 x => x.val + 1
  | _ => 0

/-- The condition of a skip instruction; false for every other (R110 to R112, R135, R155, R156). -/
def skipTaken (i : Instr) (s : State) : Bool :=
  match i with
  | .op3XNN x nn => s.reg x == nn
  | .op4XNN x nn => s.reg x != nn
  | .op5XY0 x y => s.reg x == s.reg y
  | .op9XY0 x y => s.reg x != s.reg y
  | .opEX9E x => s.keyDown (lowNibble (s.reg x))
  | .opEXA1 x => !s.keyDown (lowNibble (s.reg x))
  | _ => false

/-- The table of R97: `pc` after a step with outcome `Ok`, `s` the state before it, so that `s.pc` is
the address of the instruction. -/
def pcAfter (i : Instr) (s : State) : Word :=
  match i with
  | .op1NNN nnn => zextNNN nnn
  | .op2NNN nnn => zextNNN nnn
  | .op00EE => if s.sp.val = 0 then s.pc else s.stack[s.sp.val - 1]'(by omega)
  | .opBNNN nnn => zextNNN nnn + zextByte (s.reg 0)
  | .opFX0A _ => if s.pressedKeys = [] then s.pc else s.pc + 2
  | i => if skipTaken i s then s.pc + 4 else s.pc + 2

/-- The registers an instruction may write: the write rows of R12. -/
def regsWritten : Instr → List RegIdx
  | .op6XNN x _ | .op7XNN x _ | .opCXNN x _ => [x]
  | .op8XY0 x _ | .op8XY1 x _ | .op8XY2 x _ | .op8XY3 x _ => [x]
  | .op8XY4 x _ | .op8XY5 x _ | .op8XY6 x _ | .op8XY7 x _ | .op8XYE x _ => [x, 15]
  | .opDXYN _ _ _ => [15]
  | .opFX07 x | .opFX0A x => [x]
  | .opFX65 x => allKeys.filter fun k => decide (k.val ≤ x.val)
  | _ => []

end Sys2Proof.Machine
end

