-- ==== Sys2Proof/Certificates/Slice0/Obligations.lean ====
section
/-! DEFINITION. The statements for the provers. Inside `exec` the state is the one after the step's
advance of `pc` (R7), so `s.pc` is the address of the next instruction and `s.pc - 2` the address of
the instruction itself. -/

open Sys2Proof Sys2Proof.Machine

/-- R87, with R41's byte order: when no fault is latched and the two bytes at `pc` make a word that
decodes to `i`, the step is `exec i` on the state whose `pc` is 2 further and which is otherwise the
same; and since the fetch succeeded that `pc` is not reduced. -/
def Obligations.StepRunsTheDecodedInstruction : Prop :=
  ∀ (s : State) (op : Word) (i : Instr), s.fault = none → s.pc.toNat + 1 < 4096 →
    op.toNat = (s.read s.pc.toNat).toNat * 256 + (s.read (s.pc.toNat + 1)).toNat →
    decode op = .ok i →
    step s = exec i { s with pc := s.pc + 2 } ∧ (s.pc + 2).toNat = s.pc.toNat + 2

/-- R86: the fetch succeeds exactly when `pc` is at most 4094, whatever its parity, and then it is
the big-endian word at `pc`; otherwise the step latches `MemoryOutOfBounds` with the lowest address
that is out of range and no word. -/
def Obligations.FetchSucceedsExactlyBelow4095 : Prop :=
  ∀ s : State,
    (s.pc.toNat ≤ 4094 → ∃ op, s.fetch = .ok op ∧
      op.toNat = (s.read s.pc.toNat).toNat * 256 + (s.read (s.pc.toNat + 1)).toNat) ∧
    (s.fault = none → s.pc.toNat = 4095 → step s =
      .next { s with fault := some ⟨.memoryOutOfBounds, s.pc, 0, s.pc.toNat + 1⟩ }) ∧
    (s.fault = none → 4096 ≤ s.pc.toNat → step s =
      .next { s with fault := some ⟨.memoryOutOfBounds, s.pc, 0, s.pc.toNat⟩ })

/-- R90: a fetched word that is no instruction latches `UnknownOpcode` with the raw word, and `pc`
stays at it. -/
def Obligations.UnknownWordLatchesItself : Prop :=
  ∀ (s : State) (op : Word) (e : DecodeError), s.fault = none → s.fetch = .ok op →
    decode op = .error e →
    step s = .next { s with fault := some ⟨.unknownOpcode, s.pc, op, 0⟩ }

/-- R94: a step taken while a fault is latched changes nothing and reports the latched record. -/
def Obligations.LatchedFaultHaltsTheStep : Prop :=
  ∀ (s : State) (r : FaultRecord), s.fault = some r →
    step s = .next s ∧ hostOp .step s = .next (s, .stepped (.fault r))

/-- R100: `00E0`. -/
def Obligations.ClearLeavesNoCellLit : Prop :=
  decode 0x00E0 = .ok .op00E0 ∧
  ∀ s : State, ∃ t, exec .op00E0 s = .next t ∧
    (∀ x y, t.fb.cell x y = false) ∧ t.redraw = true ∧
    OnlyChanged (fun p => (∃ x y, p = .cell x y) ∨ p = .redraw) s t

/-- R101 with R18: `00EE` takes the newest return address, or latches `StackUnderflow`. -/
def Obligations.ReturnPopsIntoPc : Prop :=
  decode 0x00EE = .ok .op00EE ∧
  ∀ s : State,
    (∀ k : Fin 16, s.sp.val = k.val + 1 → ∃ t, exec .op00EE s = .next t ∧
      t.pc = s.stack[k.val] ∧ t.sp.val = k.val ∧
      OnlyChanged (fun p => p = .pc ∨ p = .sp) s t) ∧
    (s.sp.val = 0 → exec .op00EE s = .next (faulting s .stackUnderflow 0x00EE 0))

/-- R102, R138: the jumps write `pc` and nothing else; the sum of `BNNN` is not reduced to 12 bits.
-/
def Obligations.JumpsWritePcOnly : Prop :=
  ∀ (nnn : BitVec 12) (s : State),
    decode (BitVec.ofNat 16 (0x1000 + nnn.toNat)) = .ok (.op1NNN nnn) ∧
    decode (BitVec.ofNat 16 (0xB000 + nnn.toNat)) = .ok (.opBNNN nnn) ∧
    (∃ t, exec (.op1NNN nnn) s = .next t ∧ t.pc.toNat = nnn.toNat ∧ OnlyChanged (· = .pc) s t) ∧
    (∃ t, exec (.opBNNN nnn) s = .next t ∧ t.pc.toNat = nnn.toNat + (s.reg 0).toNat ∧
      OnlyChanged (· = .pc) s t)

/-- R103 with R17: `2NNN` pushes the address after the call, or latches `StackOverflow`. -/
def Obligations.CallPushesTheNextAddress : Prop :=
  ∀ (nnn : BitVec 12) (s : State),
    decode (BitVec.ofNat 16 (0x2000 + nnn.toNat)) = .ok (.op2NNN nnn) ∧
    (∀ k : Fin 16, s.sp.val = k.val → ∃ t, exec (.op2NNN nnn) s = .next t ∧
      t.stack[k.val] = s.pc ∧ t.sp.val = k.val + 1 ∧ t.pc.toNat = nnn.toNat ∧
      OnlyChanged (fun p => p = .pc ∨ p = .sp ∨ p = .stackCell k) s t) ∧
    (s.sp.val = 16 → exec (.op2NNN nnn) s =
      .next (faulting s .stackOverflow (BitVec.ofNat 16 (0x2000 + nnn.toNat)) 0))

/-- R110, R111, R112, R135: the four skips on registers. -/
def Obligations.RegisterSkipsTestAndSkip : Prop :=
  ∀ (x y : RegIdx) (nn : Byte) (s : State),
    decode (BitVec.ofNat 16 (0x3000 + x.val * 256 + nn.toNat)) = .ok (.op3XNN x nn) ∧
    decode (BitVec.ofNat 16 (0x4000 + x.val * 256 + nn.toNat)) = .ok (.op4XNN x nn) ∧
    decode (BitVec.ofNat 16 (0x5000 + x.val * 256 + y.val * 16)) = .ok (.op5XY0 x y) ∧
    decode (BitVec.ofNat 16 (0x9000 + x.val * 256 + y.val * 16)) = .ok (.op9XY0 x y) ∧
    SkipsWhen (.op3XNN x nn) s (s.reg x = nn) ∧
    SkipsWhen (.op4XNN x nn) s (s.reg x ≠ nn) ∧
    SkipsWhen (.op5XY0 x y) s (s.reg x = s.reg y) ∧
    SkipsWhen (.op9XY0 x y) s (s.reg x ≠ s.reg y)

/-- R155, R156, with R157's choice of the key by the register's low nibble. -/
def Obligations.KeySkipsTestTheLowNibbleKey : Prop :=
  ∀ (x : RegIdx) (s : State),
    decode (BitVec.ofNat 16 (0xE09E + x.val * 256)) = .ok (.opEX9E x) ∧
    decode (BitVec.ofNat 16 (0xE0A1 + x.val * 256)) = .ok (.opEXA1 x) ∧
    ∀ k : KeyIdx, k.val = (s.reg x).toNat % 16 →
      SkipsWhen (.opEX9E x) s (s.key[k.val] = true) ∧
      SkipsWhen (.opEXA1 x) s (s.key[k.val] = false)

/-- R115, R116: load and add an immediate; no flag is written. -/
def Obligations.ImmediatesWriteOneRegister : Prop :=
  ∀ (x : RegIdx) (nn : Byte) (s : State),
    decode (BitVec.ofNat 16 (0x6000 + x.val * 256 + nn.toNat)) = .ok (.op6XNN x nn) ∧
    decode (BitVec.ofNat 16 (0x7000 + x.val * 256 + nn.toNat)) = .ok (.op7XNN x nn) ∧
    WritesReg (.op6XNN x nn) s x nn ∧
    WritesReg (.op7XNN x nn) s x (BitVec.ofNat 8 (((s.reg x).toNat + nn.toNat) % 256))

/-- R121 to R124: assign, OR, AND, exclusive OR; no flag is written. -/
def Obligations.LogicWritesOneRegister : Prop :=
  ∀ (x y : RegIdx) (s : State),
    decode (BitVec.ofNat 16 (0x8000 + x.val * 256 + y.val * 16)) = .ok (.op8XY0 x y) ∧
    decode (BitVec.ofNat 16 (0x8001 + x.val * 256 + y.val * 16)) = .ok (.op8XY1 x y) ∧
    decode (BitVec.ofNat 16 (0x8002 + x.val * 256 + y.val * 16)) = .ok (.op8XY2 x y) ∧
    decode (BitVec.ofNat 16 (0x8003 + x.val * 256 + y.val * 16)) = .ok (.op8XY3 x y) ∧
    WritesReg (.op8XY0 x y) s x (s.reg y) ∧
    WritesReg (.op8XY1 x y) s x (s.reg x ||| s.reg y) ∧
    WritesReg (.op8XY2 x y) s x (s.reg x &&& s.reg y) ∧
    WritesReg (.op8XY3 x y) s x (s.reg x ^^^ s.reg y)

/-- R125: add; the flag is the carry out of bit 7 and there is no carry in. -/
def Obligations.AddSetsCarryOut : Prop :=
  ∀ (x y : RegIdx) (s : State),
    decode (BitVec.ofNat 16 (0x8004 + x.val * 256 + y.val * 16)) = .ok (.op8XY4 x y) ∧
    WritesResultAndFlag (.op8XY4 x y) s x
      (BitVec.ofNat 8 (((s.reg x).toNat + (s.reg y).toNat) % 256))
      (if 255 < (s.reg x).toNat + (s.reg y).toNat then 1 else 0)

/-- R126, R128: both subtractions; the flag is 1 when no borrow occurred, equal operands included.
-/
def Obligations.SubtractionsSetNoBorrow : Prop :=
  ∀ (x y : RegIdx) (s : State),
    decode (BitVec.ofNat 16 (0x8005 + x.val * 256 + y.val * 16)) = .ok (.op8XY5 x y) ∧
    decode (BitVec.ofNat 16 (0x8007 + x.val * 256 + y.val * 16)) = .ok (.op8XY7 x y) ∧
    WritesResultAndFlag (.op8XY5 x y) s x
      (BitVec.ofNat 8 (((s.reg x).toNat + 256 - (s.reg y).toNat) % 256))
      (if (s.reg y).toNat ≤ (s.reg x).toNat then 1 else 0) ∧
    WritesResultAndFlag (.op8XY7 x y) s x
      (BitVec.ofNat 8 (((s.reg y).toNat + 256 - (s.reg x).toNat) % 256))
      (if (s.reg x).toNat ≤ (s.reg y).toNat then 1 else 0)

/-- R127, R129: both shifts, of `v[Y]` under SHIFT_USES_VY and of `v[X]` otherwise; the flag is the
bit shifted out. -/
def Obligations.ShiftsSetTheLostBit : Prop :=
  ∀ (x y : RegIdx) (s : State) (src : Byte),
    src = (if s.params.shiftUsesVY = true then s.reg y else s.reg x) →
    decode (BitVec.ofNat 16 (0x8006 + x.val * 256 + y.val * 16)) = .ok (.op8XY6 x y) ∧
    decode (BitVec.ofNat 16 (0x800E + x.val * 256 + y.val * 16)) = .ok (.op8XYE x y) ∧
    WritesResultAndFlag (.op8XY6 x y) s x
      (BitVec.ofNat 8 (src.toNat / 2)) (BitVec.ofNat 8 (src.toNat % 2)) ∧
    WritesResultAndFlag (.op8XYE x y) s x
      (BitVec.ofNat 8 (src.toNat * 2 % 256)) (BitVec.ofNat 8 (src.toNat / 128))

/-- R137, R164, R165: the three instructions that write `i`; the sum of `FX1E` is reduced modulo
65536 and sets no flag; `FX29` uses the low nibble. -/
def Obligations.IndexWritesChangeOnlyI : Prop :=
  ∀ (x : RegIdx) (nnn : BitVec 12) (s : State),
    decode (BitVec.ofNat 16 (0xA000 + nnn.toNat)) = .ok (.opANNN nnn) ∧
    decode (BitVec.ofNat 16 (0xF01E + x.val * 256)) = .ok (.opFX1E x) ∧
    decode (BitVec.ofNat 16 (0xF029 + x.val * 256)) = .ok (.opFX29 x) ∧
    (∃ t, exec (.opANNN nnn) s = .next t ∧ t.i.toNat = nnn.toNat ∧ OnlyChanged (· = .i) s t) ∧
    (∃ t, exec (.opFX1E x) s = .next t ∧ t.i.toNat = (s.i.toNat + (s.reg x).toNat) % 65536 ∧
      OnlyChanged (· = .i) s t) ∧
    (∃ t, exec (.opFX29 x) s = .next t ∧ t.i.toNat = 0x050 + 5 * ((s.reg x).toNat % 16) ∧
      OnlyChanged (· = .i) s t)

/-- R139: `CXNN` for every value of the free byte: the next draw is taken, masked and written, and
one more draw is counted. The counter of draws and the opaque Config.randomByte are the model's
choice (log entry 1), and nothing rests on the values. -/
def Obligations.RandomByteIsMaskedAndFresh : Prop :=
  ∀ (x : RegIdx) (nn : Byte) (s : State),
    decode (BitVec.ofNat 16 (0xC000 + x.val * 256 + nn.toNat)) = .ok (.opCXNN x nn) ∧
    ∃ t, exec (.opCXNN x nn) s = .next t ∧ t.reg x = Config.randomByte s.draws &&& nn ∧
      t.reg x &&& ~~~nn = 0 ∧ t.draws = s.draws + 1 ∧
      OnlyChanged (fun p => p = .reg x ∨ p = .draws) s t

/-- R145 to R152: the loop of `DXYN` does what R148, which (as R150) the spec derives from R145,
says without a loop. Every cell under a 1 bit of the sprite is inverted and every other cell keeps
its value, `v[15]` is 1 exactly when a cell under a 1 bit was lit, a redraw is requested; with a
sprite byte at 4096 or above nothing but the latch changes. -/
def Obligations.DrawInvertsExactlyTheSpriteCells : Prop :=
  ∀ (x y : RegIdx) (n : Fin 16) (s : State),
    decode (BitVec.ofNat 16 (0xD000 + x.val * 256 + y.val * 16 + n.val)) = .ok (.opDXYN x y n) ∧
    ((n.val = 0 ∨ s.i.toNat + n.val ≤ 4096) → ∃ t, exec (.opDXYN x y n) s = .next t ∧
      (∀ cx cy, UnderSprite s x y n cx cy → t.fb.cell cx cy = !s.fb.cell cx cy) ∧
      (∀ cx cy, ¬ UnderSprite s x y n cx cy → t.fb.cell cx cy = s.fb.cell cx cy) ∧
      (t.reg 15 = 0 ∨ t.reg 15 = 1) ∧
      (t.reg 15 = 1 ↔ ∃ cx cy, UnderSprite s x y n cx cy ∧ s.fb.cell cx cy = true) ∧
      t.redraw = true ∧
      OnlyChanged (fun p => (∃ cx cy, p = .cell cx cy) ∨ p = .reg 15 ∨ p = .redraw) s t) ∧
    (0 < n.val → 4096 < s.i.toNat + n.val → exec (.opDXYN x y n) s =
      .next (faulting s .memoryOutOfBounds
        (BitVec.ofNat 16 (0xD000 + x.val * 256 + y.val * 16 + n.val)) (max s.i.toNat 4096)))

/-- R160, R162, R163: the timers are read and written, and reading changes neither. -/
def Obligations.TimerInstructionsMoveOneByte : Prop :=
  ∀ (x : RegIdx) (s : State),
    decode (BitVec.ofNat 16 (0xF007 + x.val * 256)) = .ok (.opFX07 x) ∧
    decode (BitVec.ofNat 16 (0xF015 + x.val * 256)) = .ok (.opFX15 x) ∧
    decode (BitVec.ofNat 16 (0xF018 + x.val * 256)) = .ok (.opFX18 x) ∧
    WritesReg (.opFX07 x) s x s.delayTimer ∧
    (∃ t, exec (.opFX15 x) s = .next t ∧ t.delayTimer = s.reg x ∧
      OnlyChanged (· = .delayTimer) s t) ∧
    (∃ t, exec (.opFX18 x) s = .next t ∧ t.soundTimer = s.reg x ∧
      OnlyChanged (· = .soundTimer) s t)

/-- R161's effect, its choice of a key as the model's table (log entry 4): with no key pressed
`FX0A` only takes `pc` back to itself; with one pressed it writes the index of a pressed key, the
least one where the table KEYWAIT_SELECT says nothing else, and the choice depends on nothing but
the table and the set of pressed keys. -/
def Obligations.KeyWaitReportsAPressedKey : Prop :=
  ∀ (x : RegIdx) (s : State),
    decode (BitVec.ofNat 16 (0xF00A + x.val * 256)) = .ok (.opFX0A x) ∧
    ((∀ k : KeyIdx, s.key[k.val] = false) →
      exec (.opFX0A x) s = .next { s with pc := s.pc - 2 }) ∧
    (∀ j : KeyIdx, s.key[j.val] = true → ∃ (k : KeyIdx) (t : State),
      s.key[k.val] = true ∧ selectKey s.params.keySelect s.pressedKeys = some k ∧
      exec (.opFX0A x) s = .next t ∧ (t.reg x).toNat = k.val ∧ OnlyChanged (· = .reg x) s t ∧
      (s.params.keySelect = [] → ∀ l : KeyIdx, l < k → s.key[l.val] = false))

/-- R166: the three decimal digits at `i`, `i + 1`, `i + 2`, or the fault with nothing written. -/
def Obligations.DecimalDigitsAreStored : Prop :=
  ∀ (x : RegIdx) (s : State), s.mem.wf s.params.font = true →
    decode (BitVec.ofNat 16 (0xF033 + x.val * 256)) = .ok (.opFX33 x) ∧
    (s.i.toNat + 2 < 4096 → ∃ t, exec (.opFX33 x) s = .next t ∧
      (t.read s.i.toNat).toNat = (s.reg x).toNat / 100 ∧
      (t.read (s.i.toNat + 1)).toNat = (s.reg x).toNat / 10 % 10 ∧
      (t.read (s.i.toNat + 2)).toNat = (s.reg x).toNat % 10 ∧
      OnlyChanged (fun p => ∃ k, k < 3 ∧ p = .byte (s.i.toNat + k)) s t) ∧
    (4096 ≤ s.i.toNat + 2 → exec (.opFX33 x) s =
      .next (faulting s .memoryOutOfBounds (BitVec.ofNat 16 (0xF033 + x.val * 256))
        (max s.i.toNat 4096)))

/-- R167: `v[0]` to `v[X]` at `i` upward with `i` unchanged, or the fault with nothing written. -/
def Obligations.RegisterBlockIsStored : Prop :=
  ∀ (x : RegIdx) (s : State), s.mem.wf s.params.font = true →
    decode (BitVec.ofNat 16 (0xF055 + x.val * 256)) = .ok (.opFX55 x) ∧
    (s.i.toNat + x.val < 4096 → ∃ t, exec (.opFX55 x) s = .next t ∧
      (∀ k : RegIdx, k ≤ x → t.read (s.i.toNat + k.val) = s.reg k) ∧
      OnlyChanged (fun p => ∃ k : RegIdx, k ≤ x ∧ p = .byte (s.i.toNat + k.val)) s t) ∧
    (4096 ≤ s.i.toNat + x.val → exec (.opFX55 x) s =
      .next (faulting s .memoryOutOfBounds (BitVec.ofNat 16 (0xF055 + x.val * 256))
        (max s.i.toNat 4096)))

/-- R168: `v[0]` to `v[X]` from `i` upward with `i` and memory unchanged, or the fault with no
register changed. -/
def Obligations.RegisterBlockIsLoaded : Prop :=
  ∀ (x : RegIdx) (s : State),
    decode (BitVec.ofNat 16 (0xF065 + x.val * 256)) = .ok (.opFX65 x) ∧
    (s.i.toNat + x.val < 4096 → ∃ t, exec (.opFX65 x) s = .next t ∧
      (∀ k : RegIdx, k ≤ x → t.reg k = s.read (s.i.toNat + k.val)) ∧
      OnlyChanged (fun p => ∃ k : RegIdx, k ≤ x ∧ p = .reg k) s t) ∧
    (4096 ≤ s.i.toNat + x.val → exec (.opFX65 x) s =
      .next (faulting s .memoryOutOfBounds (BitVec.ofNat 16 (0xF065 + x.val * 256))
        (max s.i.toNat 4096)))

/-- The round trip that R167 quotes: what `FX55` stored, `FX65` loads back, from any later state
with that memory, that FONT and that `i`, whatever its registers hold. -/
def Obligations.StoredBlockLoadsBack : Prop :=
  ∀ (x : RegIdx) (s t u : State), s.mem.wf s.params.font = true → s.i.toNat + x.val < 4096 →
    exec (.opFX55 x) s = .next t → u.mem = t.mem → u.params = t.params → u.i = s.i →
    ∃ w, exec (.opFX65 x) u = .next w ∧ (∀ k : RegIdx, k ≤ x → w.reg k = s.reg k) ∧
      (∀ k : RegIdx, x < k → w.reg k = u.reg k)

/-- R54, which the spec marks as derived: a fetch from the bytes an `FX55` has just stored reads the
registers that were stored. -/
def Obligations.FetchSeesTheLastStore : Prop :=
  ∀ (x k l : RegIdx) (s t : State), s.mem.wf s.params.font = true → s.i.toNat + x.val < 4096 →
    l.val = k.val + 1 → l ≤ x → exec (.opFX55 x) s = .next t → t.pc.toNat = s.i.toNat + k.val →
    t.fetch = .ok (wordOfBytes (s.reg k) (s.reg l))

/-- The round trip of call and return that R103 quotes: from any later state with that stack, `00EE`
takes `pc` to the instruction after the call and gives the call's entry back. -/
def Obligations.ReturnUndoesCall : Prop :=
  ∀ (nnn : BitVec 12) (s t u : State), s.sp.val < 16 → exec (.op2NNN nnn) s = .next t →
    u.stack = t.stack → u.sp = t.sp →
    ∃ w, exec .op00EE u = .next w ∧ w.pc = s.pc ∧ w.sp = s.sp

/-- R92: the host's `step` always answers, with one of three reports; `AwaitingInput` goes with no
change at all and exactly with an unfaulted machine waiting at an `FX0A`; a fault changes the latch
only, and only if it was empty. -/
def Obligations.StepHasExactlyThreeOutcomes : Prop :=
  ∀ s : State, ∃ (t : State) (rep : StepReport), step s = .next t ∧
    hostOp .step s = .next (t, .stepped rep) ∧
    (rep = .awaitingInput ↔ s.fault = none ∧ s.pressedKeys = [] ∧
      ∃ x, s.fetchInstr = .ok (.opFX0A x)) ∧
    (rep = .awaitingInput → t = s) ∧
    (∀ r, rep = .fault r → t = { s with fault := some r } ∧ (∀ r', s.fault = some r' → r' = r)) ∧
    (rep = .ok → t.fault = none)

/-- R184, R194: a step that raises a fault reports it and leaves the state before it with the latch
set; the record names the instruction's address, the fetched word (0 if none was fetched), and an
out-of-range address for `MemoryOutOfBounds` alone. -/
def Obligations.FaultsArePrecise : Prop :=
  ∀ (s t : State) (r : FaultRecord), s.fault = none → step s = .next t → t.fault = some r →
    t = { s with fault := some r } ∧ hostOp .step s = .next (t, .stepped (.fault r)) ∧
    r.faultPc = s.pc ∧
    (∀ op, s.fetch = .ok op → r.faultOp = op) ∧ (∀ a, s.fetch = .error a → r.faultOp = 0) ∧
    (r.cause = .memoryOutOfBounds → 4096 ≤ r.faultAddr ∧ r.faultAddr ≤ 65550) ∧
    (r.cause ≠ .memoryOutOfBounds → r.faultAddr = 0)

/-- R182, R183, and R181, which the spec marks as derived from the rules it collects: each cause is
raised exactly under its condition, and under no other. -/
def Obligations.FaultsExactlyUnderTheirConditions : Prop :=
  ∀ s t : State, s.fault = none → step s = .next t →
    ((∃ r, t.fault = some r ∧ r.cause = .memoryOutOfBounds) ↔
      4096 ≤ s.pc.toNat + 1 ∨
        ∃ i, s.fetchInstr = .ok i ∧ 0 < bytesTouched i ∧ 4096 < s.i.toNat + bytesTouched i) ∧
    ((∃ r, t.fault = some r ∧ r.cause = .stackOverflow) ↔
      s.sp.val = 16 ∧ ∃ nnn, s.fetchInstr = .ok (.op2NNN nnn)) ∧
    ((∃ r, t.fault = some r ∧ r.cause = .stackUnderflow) ↔
      s.sp.val = 0 ∧ s.fetchInstr = .ok .op00EE) ∧
    ((∃ r, t.fault = some r ∧ r.cause = .unknownOpcode) ↔
      ∃ op e, s.fetch = .ok op ∧ decode op = .error e)

/-- R95, which the spec marks as derived from the instruction rules: what a step never changes, and
which instructions alone change the rest. -/
def Obligations.StepChangesOnlyWhatItsInstructionMay : Prop :=
  ∀ s t : State, step s = .next t →
    t.key = s.key ∧ t.params = s.params ∧
    (t.delayTimer ≠ s.delayTimer → ∃ x, s.fetchInstr = .ok (.opFX15 x)) ∧
    (t.soundTimer ≠ s.soundTimer → ∃ x, s.fetchInstr = .ok (.opFX18 x)) ∧
    (s.redraw = true → t.redraw = true) ∧
    (t.redraw ≠ s.redraw → s.fetchInstr = .ok .op00E0 ∨
      ∃ x y n, s.fetchInstr = .ok (.opDXYN x y n)) ∧
    (t.mem ≠ s.mem → ∃ x, s.fetchInstr = .ok (.opFX33 x) ∨ s.fetchInstr = .ok (.opFX55 x)) ∧
    (t.fb ≠ s.fb → s.fetchInstr = .ok .op00E0 ∨ ∃ x y n, s.fetchInstr = .ok (.opDXYN x y n)) ∧
    (t.stack ≠ s.stack ∨ t.sp ≠ s.sp → s.fetchInstr = .ok .op00EE ∨
      ∃ nnn, s.fetchInstr = .ok (.op2NNN nnn)) ∧
    (t.i ≠ s.i → (∃ nnn, s.fetchInstr = .ok (.opANNN nnn)) ∨
      ∃ x, s.fetchInstr = .ok (.opFX1E x) ∨ s.fetchInstr = .ok (.opFX29 x))

/-- The write rows of R12, which the spec marks as derived from the instruction rules, and R13: a
step changes no register but those the table gives its instruction, and after each of the six
flag-writing instructions that does not fault `v[15]` is 0 or 1. -/
def Obligations.StepWritesOnlyTheTabledRegisters : Prop :=
  ∀ s t : State, step s = .next t →
    (∀ k, t.reg k ≠ s.reg k → ∃ i, s.fetchInstr = .ok i ∧ k ∈ regsWritten i) ∧
    (∀ i, s.fetchInstr = .ok i → t.fault = none → (∃ x y n,
      i = .op8XY4 x y ∨ i = .op8XY5 x y ∨ i = .op8XY6 x y ∨ i = .op8XY7 x y ∨ i = .op8XYE x y ∨
      i = .opDXYN x y n) → t.reg 15 = 0 ∨ t.reg 15 = 1)

/-- R97, which the spec marks as derived from the instruction rules: `pc` after every step, and `pc`
at the instruction after a fault. -/
def Obligations.PcAfterEveryStep : Prop :=
  ∀ s t : State, s.fault = none → step s = .next t →
    (∀ i, s.fetchInstr = .ok i → t.fault = none → t.pc = pcAfter i s) ∧
    (t.fault ≠ none → t.pc = s.pc)

/-- Every step keeps memory canonical and a latched record R194's. -/
def Obligations.StepKeepsTheInvariant : Prop :=
  ∀ s t : State, s.Inv → step s = .next t → t.Inv

/-- The invariant holds at reset. -/
def Obligations.ResetHasTheInvariant : Prop := State.reset.Inv ∧ State.reset.PcBound

/-- Every host operation keeps the invariant too, the load of a program among them. -/
def Obligations.HostOperationsKeepTheInvariant : Prop :=
  ∀ (op : HostOp) (s t : State) (res : HostResult), s.Inv → hostOp op s = .next (t, res) → t.Inv

/-- The bounds that R16, in a sentence the spec marks as derived, and R101 give: `pc` never exceeds
0x10FE, and a live return address lies between 0x002 and 0x1000: every host operation, a step among
them, keeps both bounds. -/
def Obligations.PcBoundIsKept : Prop :=
  ∀ (op : HostOp) (s t : State) (res : HostResult), s.PcBound → hostOp op s = .next (t, res) →
    t.PcBound

/-- Decoding the word of any instruction gives the instruction back, with every operand at every
value: R67's ranges are the operands' types, so every `Instr` is well-formed. -/
def Obligations.DecodeOfEncode : Prop :=
  ∀ i : Instr, decode (encode i) = .ok i ∧ decodeBytes (encodeBytes i) = .ok (i, [])

/-- Each word has one meaning: encoding what it decodes to gives the word back. -/
def Obligations.EncodeOfDecode : Prop :=
  ∀ (w : Word) (i : Instr), decode w = .ok i → encode i = w

/-- R70: a word is the instruction exactly when it matches the instruction's row, and no two rows
overlap. -/
def Obligations.DecodeFollowsTheOpcodeMap : Prop :=
  (∀ w : Word, wordWellFormed w = true ↔ ∃ i, decode w = .ok i) ∧
  (∀ (w : Word) (r : MapRow), r ∈ opcodeMap → r.covers w = true →
    ∃ i, decode w = .ok i ∧ i.row = r) ∧
  (∀ (w : Word) (r r' : MapRow), r ∈ opcodeMap → r' ∈ opcodeMap → r.covers w = true →
    r'.covers w = true → r = r')

/-- The illegal words of R71, which the spec marks as derived (its table's conditions, not its
counts), each rejected with its own word. -/
def Obligations.IllegalWordsAreExactlyTheseFamilies : Prop :=
  ∀ w : Word, decode w = .error (.unknownOpcode w) ↔
    (w.toNat / 4096 = 0x0 ∧ w.toNat ≠ 0x00E0 ∧ w.toNat ≠ 0x00EE) ∨
    (w.toNat / 4096 = 0x5 ∧ w.toNat % 16 ≠ 0) ∨
    (w.toNat / 4096 = 0x8 ∧ w.toNat % 16 ∈ [0x8, 0x9, 0xA, 0xB, 0xC, 0xD, 0xF]) ∨
    (w.toNat / 4096 = 0x9 ∧ w.toNat % 16 ≠ 0) ∨
    (w.toNat / 4096 = 0xE ∧ w.toNat % 256 ∉ [0x9E, 0xA1]) ∨
    (w.toNat / 4096 = 0xF ∧
      w.toNat % 256 ∉ [0x07, 0x0A, 0x15, 0x18, 0x1E, 0x29, 0x33, 0x55, 0x65])

/-- A few words of the spec's decode table (95, Decode), as bytes in memory order. -/
def Obligations.SampleWordsDecode : Prop :=
  decodeBytes [0x1A, 0xBC] = .ok (.op1NNN 0xABC, []) ∧
  decodeBytes [0x3A, 0x7F] = .ok (.op3XNN 10 0x7F, []) ∧
  decodeBytes [0x8A, 0xBE] = .ok (.op8XYE 10 11, []) ∧
  decodeBytes [0xD5, 0xA7] = .ok (.opDXYN 5 10 7, []) ∧
  decodeBytes [0xE0, 0xA1] = .ok (.opEXA1 0, []) ∧
  decodeBytes [0xFF, 0x55] = .ok (.opFX55 15, []) ∧
  decodeBytes [0x5A, 0xB1] = .error (.unknownOpcode 0x5AB1)

/-- R200, R201: a tick takes 1 from each timer, floored at 0 and independently, and touches nothing
else; `n` ticks take `n`, so a timer loaded with `n` reaches 0 after exactly `n`. -/
def Obligations.TicksCountDownToZero : Prop :=
  ∀ s : State, hostOp .tickTimers s = .next (tickTimers s, .done) ∧
    OnlyChanged (fun p => p = .delayTimer ∨ p = .soundTimer) s (tickTimers s) ∧
    ∀ n : Nat, ((tickTimers^[n]) s).delayTimer.toNat = s.delayTimer.toNat - n ∧
      ((tickTimers^[n]) s).soundTimer.toNat = s.soundTimer.toNat - n

/-- R207: the program is copied whole from 0x200 and nothing else changes, or, when it is longer
than 3584 bytes, nothing at all. -/
def Obligations.LoadCopiesAllOrNothing : Prop :=
  ∀ (bytes : List Byte) (s : State), s.mem.wf s.params.font = true →
    (bytes.length ≤ 3584 → ∃ t, hostOp (.load bytes) s = .next (t, .loaded .ok) ∧
      (∀ k (h : k < bytes.length), t.read (0x200 + k) = bytes[k]) ∧
      OnlyChanged (fun p => ∃ k, k < bytes.length ∧ p = .byte (0x200 + k)) s t) ∧
    (3584 < bytes.length → hostOp (.load bytes) s = .next (s, .loaded .romTooLarge))

/-- R34, R220: every item of the spec's state at reset, for every FONT: the machine's own parameters
stay, and every piece but the count of draws is that of a machine newly built with them. -/
def Obligations.ResetValues : Prop :=
  ∀ s : State, ∃ t, hostOp .reset s = .next (t, .done) ∧
    (∀ p : Piece, p ≠ .draws → p.same (State.resetWith s.params) t) ∧ t.params = s.params ∧
    (∀ k, t.reg k = 0) ∧ t.i = 0 ∧ t.pc = 0x0200 ∧ t.sp.val = 0 ∧
    (∀ k : Fin 16, t.stack[k.val] = 0) ∧ t.delayTimer = 0 ∧ t.soundTimer = 0 ∧
    (∀ k : Fin 80, t.read (0x050 + k.val) = s.params.font[k.val]) ∧
    (∀ a, a < 0x050 ∨ 0x0A0 ≤ a → t.read a = 0) ∧
    (∀ x y, t.fb.cell x y = false) ∧ (∀ k : KeyIdx, t.key[k.val] = false) ∧
    t.redraw = false ∧ t.fault = none

/-- R210, R211, R212, R204: one key's level is set and nothing else; the display, whole or one cell
by its index, the redraw signal and the sound timer are read without a change; the redraw signal is
cleared and nothing else. -/
def Obligations.HostSetsKeysAndReadsOutputs : Prop :=
  ∀ s : State,
    (∀ (k : KeyIdx) (b : Bool), ∃ t, hostOp (.setKey k b) s = .next (t, .done) ∧
      t.key[k.val] = b ∧ OnlyChanged (· = .key k) s t) ∧
    (∃ g, hostOp .readFb s = .next (s, .grid g) ∧ ∀ x y, g.cell x y = s.fb.cell x y) ∧
    (∀ (idx : Fin 2048) (x : Fin 64) (y : Fin 32), idx.val = y.val * 64 + x.val →
      hostOp (.readFbCell idx) s = .next (s, .bit (s.fb.cell x y))) ∧
    hostOp .readRedraw s = .next (s, .bit s.redraw) ∧
    (∃ t, hostOp .clearRedraw s = .next (t, .done) ∧ t.redraw = false ∧
      OnlyChanged (· = .redraw) s t) ∧
    (∃ b, hostOp .readSound s = .next (s, .sound s.soundTimer b) ∧ (b = true ↔ s.soundTimer ≠ 0))

/-- R185: while a fault is latched a step changes nothing and reports it; no operation of the host
but `reset` clears or changes the latch, and `reset` clears it. -/
def Obligations.OnlyResetClearsTheLatch : Prop :=
  ∀ (s t : State) (r : FaultRecord) (op : HostOp) (res : HostResult), s.fault = some r →
    hostOp op s = .next (t, res) →
    (op = .step → t = s ∧ res = .stepped (.fault r)) ∧
    (op ≠ .reset → t.fault = some r) ∧ (op = .reset → t.fault = none)

/-- R31: the keys are read by `EX9E`, `EXA1` and `FX0A` alone: every other instruction does the same
whatever the keys are, and leaves them as they are. -/
def Obligations.OnlyKeyInstructionsReadKeys : Prop :=
  ∀ (i : Instr) (s : State) (keys : Vector Bool 16),
    (∀ x, i ≠ .opEX9E x ∧ i ≠ .opEXA1 x ∧ i ≠ .opFX0A x) →
    exec i { s with key := keys } = mapNext (fun t => { t with key := keys }) (exec i s)

/-- R23, R30: no instruction reads the sound timer or the redraw flag: what they hold before changes
nothing but what they hold after, and `FX18`, `00E0` and `DXYN` (unless it faults) overwrite it. -/
def Obligations.NoInstructionReadsSoundOrRedraw : Prop :=
  ∀ (i : Instr) (s : State) (b : Byte) (c : Bool),
    ((∀ x, i ≠ .opFX18 x) → exec i { s with soundTimer := b } =
      mapNext (fun t => { t with soundTimer := b }) (exec i s)) ∧
    (∀ x, i = .opFX18 x → exec i { s with soundTimer := b } = exec i s) ∧
    (i ≠ .op00E0 → (∀ x y n, i ≠ .opDXYN x y n) → exec i { s with redraw := c } =
      mapNext (fun t => { t with redraw := c }) (exec i s)) ∧
    (i = .op00E0 → exec i { s with redraw := c } = exec i s) ∧
    (∀ x y n, i = .opDXYN x y n → n.val = 0 ∨ s.i.toNat + n.val ≤ 4096 →
      exec i { s with redraw := c } = exec i s)

/-- R19: stack cells at `sp` and above are not observable: two states that differ in them alone step
to two states that again differ at most in such cells. -/
def Obligations.DeadStackCellsAreUnobservable : Prop :=
  ∀ s t : State, SameButDeadStack s t →
    ∃ s' t', step s = .next s' ∧ step t = .next t' ∧ SameButDeadStack s' t'

/-- R231: a machine at a jump to itself, and a machine waiting for a key, stay as they are; and a
key press ends the wait. -/
def Obligations.SpinningAndWaitingChangeNothing : Prop :=
  ∀ s : State, (s.spinning = true → step s = .next s) ∧
    (s.waiting = true → step s = .next s ∧ ∀ k, (setKey k true s).waiting = false)

/-- R5, R161, and log entry 4: the table in which the model holds KEYWAIT_SELECT can hold every
function from non-empty sets of keys to a member. -/
def Obligations.EveryKeySelectionHasATable : Prop :=
  ∀ f : List KeyIdx → KeyIdx, (∀ keys, keys ≠ [] → f keys ∈ keys) →
    ∃ table, ∀ s : State, s.pressedKeys ≠ [] →
      selectKey table s.pressedKeys = some (f s.pressedKeys)
end

