-- ==== Sys2Proof/Laws/Encoding.lean ====
section
/-! SUPPORT. The fields read from a word of each format are the fields it was made of (R66). -/

namespace Sys2Proof

/-- Bits taken from above the lower part of a concatenation are the upper part's. -/
theorem extract_append_high {n m : Nat} (a : BitVec n) (b : BitVec m) (k l : Nat) :
    (a ++ b).extractLsb' (m + k) l = a.extractLsb' k l := by
  apply BitVec.eq_of_getLsbD_eq
  intro j hj
  rw [BitVec.getLsbD_extractLsb', BitVec.getLsbD_extractLsb', BitVec.getLsbD_append,
    if_neg (by omega), show m + k + j - m = k + j by omega]

theorem extract_whole {n : Nat} (a : BitVec n) : a.extractLsb' 0 n = a :=
  BitVec.extractLsb'_eq_self

@[simp] theorem toFin_nibble (k : Fin 16) : (nibble k).toFin = k := rfl

@[simp] theorem nibble_toFin (b : BitVec 4) : nibble b.toFin = b := rfl

@[simp] theorem fieldN3_formatA (n3 : BitVec 4) (nnn : BitVec 12) :
    fieldN3 (formatA n3 nnn) = n3 :=
  (extract_append_high n3 nnn 0 4).trans (extract_whole n3)

@[simp] theorem fieldNNN_formatA (n3 : BitVec 4) (nnn : BitVec 12) :
    fieldNNN (formatA n3 nnn) = nnn :=
  (BitVec.extractLsb'_append_eq_of_add_le (by decide)).trans (extract_whole nnn)

@[simp] theorem fieldN3_formatI (n3 : BitVec 4) (x : RegIdx) (nn : Byte) :
    fieldN3 (formatI n3 x nn) = n3 :=
  ((extract_append_high (n3 ++ nibble x) nn 4 4).trans
    (extract_append_high n3 (nibble x) 0 4)).trans (extract_whole n3)

@[simp] theorem fieldX_formatI (n3 : BitVec 4) (x : RegIdx) (nn : Byte) :
    fieldX (formatI n3 x nn) = x :=
  congrArg BitVec.toFin (((extract_append_high (n3 ++ nibble x) nn 0 4).trans
    (BitVec.extractLsb'_append_eq_of_add_le (by decide))).trans (extract_whole (nibble x)))

@[simp] theorem fieldNN_formatI (n3 : BitVec 4) (x : RegIdx) (nn : Byte) :
    fieldNN (formatI n3 x nn) = nn :=
  (BitVec.extractLsb'_append_eq_of_add_le (by decide)).trans (extract_whole nn)

@[simp] theorem fieldN3_formatS (n3 : BitVec 4) (x : RegIdx) (f : Byte) :
    fieldN3 (formatS n3 x f) = n3 := fieldN3_formatI n3 x f

@[simp] theorem fieldX_formatS (n3 : BitVec 4) (x : RegIdx) (f : Byte) :
    fieldX (formatS n3 x f) = x := fieldX_formatI n3 x f

@[simp] theorem fieldNN_formatS (n3 : BitVec 4) (x : RegIdx) (f : Byte) :
    fieldNN (formatS n3 x f) = f := fieldNN_formatI n3 x f

@[simp] theorem fieldN3_formatR (n3 : BitVec 4) (x y : RegIdx) (f : BitVec 4) :
    fieldN3 (formatR n3 x y f) = n3 :=
  (((extract_append_high (n3 ++ nibble x ++ nibble y) f 8 4).trans
    (extract_append_high (n3 ++ nibble x) (nibble y) 4 4)).trans
    (extract_append_high n3 (nibble x) 0 4)).trans (extract_whole n3)

@[simp] theorem fieldX_formatR (n3 : BitVec 4) (x y : RegIdx) (f : BitVec 4) :
    fieldX (formatR n3 x y f) = x :=
  congrArg BitVec.toFin ((((extract_append_high (n3 ++ nibble x ++ nibble y) f 4 4).trans
    (extract_append_high (n3 ++ nibble x) (nibble y) 0 4)).trans
    (BitVec.extractLsb'_append_eq_of_add_le (by decide))).trans (extract_whole (nibble x)))

@[simp] theorem fieldY_formatR (n3 : BitVec 4) (x y : RegIdx) (f : BitVec 4) :
    fieldY (formatR n3 x y f) = y :=
  congrArg BitVec.toFin (((extract_append_high (n3 ++ nibble x ++ nibble y) f 0 4).trans
    (BitVec.extractLsb'_append_eq_of_add_le (by decide))).trans
    (extract_whole (nibble y)))

@[simp] theorem fieldN_formatR (n3 : BitVec 4) (x y : RegIdx) (f : BitVec 4) :
    fieldN (formatR n3 x y f) = f :=
  (BitVec.extractLsb'_append_eq_of_add_le (by decide)).trans (extract_whole f)

/-- Format D is format R with the row count in the function's place (R66). -/
theorem formatD_eq (x y : RegIdx) (n : Fin 16) : formatD x y n = formatR 0xD x y (nibble n) := rfl

/-- The bytes of a word put together again give the word (R41). -/
@[simp] theorem wordOfBytes_bytes (w : Word) : wordOfBytes (highByte w) (lowByte w) = w := by
  unfold wordOfBytes highByte lowByte
  apply BitVec.eq_of_getLsbD_eq
  intro j hj
  rw [BitVec.getLsbD_append, BitVec.getLsbD_extractLsb', BitVec.getLsbD_extractLsb']
  by_cases h : j < 8
  · simp [h]
  · simp only [h, if_false, show j - 8 < 8 by omega, show 8 + (j - 8) = j by omega,
      decide_true, Bool.true_and]

/-- The high byte of two bytes put together is the one at the lower address (R41). -/
@[simp] theorem highByte_wordOfBytes (hi lo : Byte) : highByte (wordOfBytes hi lo) = hi :=
  (extract_append_high hi lo 0 8).trans (extract_whole hi)

@[simp] theorem lowByte_wordOfBytes (hi lo : Byte) : lowByte (wordOfBytes hi lo) = lo :=
  (BitVec.extractLsb'_append_eq_of_add_le (by decide)).trans (extract_whole lo)

/-- The value of a concatenation (R66: the fields are digits of one number). -/
theorem toNat_append_add {n m : Nat} (a : BitVec n) (b : BitVec m) :
    (a ++ b).toNat = a.toNat * 2 ^ m + b.toNat := by
  rw [BitVec.toNat_append, ← Nat.shiftLeft_add_eq_or_of_lt b.isLt, Nat.shiftLeft_eq]

theorem toNat_formatA (n3 : BitVec 4) (nnn : BitVec 12) :
    (formatA n3 nnn).toNat = n3.toNat * 4096 + nnn.toNat :=
  toNat_append_add n3 nnn

theorem toNat_formatI (n3 : BitVec 4) (x : RegIdx) (nn : Byte) :
    (formatI n3 x nn).toNat = n3.toNat * 4096 + x.val * 256 + nn.toNat := by
  have h : (formatI n3 x nn).toNat = (n3 ++ nibble x).toNat * 2 ^ 8 + nn.toNat :=
    toNat_append_add (n3 ++ nibble x) nn
  have h' : (nibble x).toNat = x.val := rfl
  rw [h, toNat_append_add, h']
  omega

theorem toNat_formatS (n3 : BitVec 4) (x : RegIdx) (f : Byte) :
    (formatS n3 x f).toNat = n3.toNat * 4096 + x.val * 256 + f.toNat := toNat_formatI n3 x f

theorem toNat_formatR (n3 : BitVec 4) (x y : RegIdx) (f : BitVec 4) :
    (formatR n3 x y f).toNat = n3.toNat * 4096 + x.val * 256 + y.val * 16 + f.toNat := by
  have h : (formatR n3 x y f).toNat = (n3 ++ nibble x ++ nibble y).toNat * 2 ^ 4 + f.toNat :=
    toNat_append_add (n3 ++ nibble x ++ nibble y) f
  have hx : (nibble x).toNat = x.val := rfl
  have hy : (nibble y).toNat = y.val := rfl
  rw [h, toNat_append_add, toNat_append_add, hx, hy]
  omega

/-- A word whose value is that of a format is that format's word. -/
theorem eq_ofNat_of_toNat {w : Word} {k : Nat} (h : w.toNat = k) : BitVec.ofNat 16 k = w := by
  rw [← h, BitVec.ofNat_toNat, BitVec.setWidth_eq]

/-- The value of two bytes in memory order (R41). -/
theorem toNat_wordOfBytes (hi lo : Byte) :
    (wordOfBytes hi lo).toNat = hi.toNat * 256 + lo.toNat :=
  toNat_append_add hi lo

end Sys2Proof
end

