-- ==== Sys2Proof/Laws/Memory.lean ====
section
/-! SUPPORT. The laws of memory: a read after a write, the canonical form is kept, and two canonical
memories that read the same are the same. -/

namespace Sys2Proof.Machine

variable {font : Config.Font}

/-- An address in the font block is reset to its byte of FONT (R25, R26). -/
theorem resetByte_font (k : Fin 80) : resetByte font (0x050 + k.val) = font[k.val] := by
  simp [resetByte, Vector.getD]

/-- An address outside the font block is reset to 0 (R25). -/
theorem resetByte_of_outside {a : Nat} (h : a < 0x050 ∨ 0x0A0 ≤ a) : resetByte font a = 0 := by
  unfold resetByte
  split
  · rename_i h'
    simp only [Config.fontBase] at h' ⊢
    have : ¬ a - 0x050 < 80 := by omega
    simp [Vector.getD, this]
  · rfl

@[simp] theorem Memory.read_nil (a : Nat) : Memory.read [] font a = resetByte font a := rfl

theorem Memory.read_cons (p : Host.Cell) (m : Memory) (a : Nat) :
    Memory.read (p :: m) font a = if p.1 = a then p.2 else Memory.read m font a := rfl

/-- Below its lowest address a canonical memory reads as reset leaves it. -/
theorem Memory.read_of_lt : ∀ {m : Memory} {lo a : Nat}, Memory.wfFrom font lo m = true → a < lo →
    Memory.read m font a = resetByte font a
  | [], _, _, _, _ => rfl
  | (a', b) :: m, lo, a, h, hlt => by
    simp only [Memory.wfFrom, Bool.and_eq_true, decide_eq_true_eq] at h
    obtain ⟨⟨⟨h1, -⟩, -⟩, h4⟩ := h
    rw [Memory.read_cons, if_neg (by simp only; omega), Memory.read_of_lt h4 (by omega)]

/-- A read after a write gives the byte written at its address and the old byte at every other. -/
theorem Memory.read_write : ∀ {m : Memory} {lo : Nat} (a : Nat) (b : Byte) (a' : Nat),
    Memory.wfFrom font lo m = true →
    Memory.read (Memory.write m font a b) font a' = if a' = a then b else Memory.read m font a'
  | [], _, a, b, a', _ => by
    by_cases hb : b = resetByte font a <;> by_cases ha : a' = a <;>
      simp [Memory.write, Memory.read_cons, hb, ha, eq_comm (a := a)]
  | (c, d) :: m, lo, a, b, a', h => by
    simp only [Memory.wfFrom, Bool.and_eq_true, decide_eq_true_eq] at h
    obtain ⟨⟨⟨h1, -⟩, -⟩, h4⟩ := h
    unfold Memory.write
    split
    · rename_i hlt
      split
      · rename_i hb
        by_cases ha : a' = a
        · rw [if_pos ha, ha, hb, Memory.read_cons, if_neg (by simp only; omega),
            Memory.read_of_lt h4 (by omega)]
        · rw [if_neg ha]
      · rw [Memory.read_cons]
        simp only [eq_comm (a := a)]
    · split
      · rename_i hne hc
        subst hc
        split
        · rename_i hb
          by_cases ha : a' = a
          · rw [if_pos ha, ha, hb, Memory.read_of_lt h4 (by omega)]
          · rw [if_neg ha, Memory.read_cons, if_neg (by simp only; omega)]
        · rw [Memory.read_cons, Memory.read_cons]
          by_cases ha : a' = a <;> simp [ha, eq_comm (a := a)]
      · rename_i hlt hne
        rw [Memory.read_cons, Memory.read_cons, Memory.read_write a b a' h4]
        by_cases hc : c = a'
        · rw [if_pos hc, if_pos hc, if_neg (by omega)]
        · rw [if_neg hc, if_neg hc]

/-- Canonical from a higher address is canonical from a lower one. -/
theorem Memory.wfFrom_mono {m : Memory} {lo hi : Nat} (hle : lo ≤ hi)
    (h : Memory.wfFrom font hi m = true) : Memory.wfFrom font lo m = true := by
  cases m with
  | nil => rfl
  | cons p m =>
    simp only [Memory.wfFrom, Bool.and_eq_true, decide_eq_true_eq] at h ⊢
    exact ⟨⟨⟨by omega, h.1.1.2⟩, h.1.2⟩, h.2⟩

/-- A write of an address in memory keeps the canonical form. -/
theorem Memory.wfFrom_write : ∀ {m : Memory} {lo : Nat} (a : Nat) (b : Byte), lo ≤ a →
    a < Config.memSize → Memory.wfFrom font lo m = true →
    Memory.wfFrom font lo (Memory.write m font a b) = true
  | [], lo, a, b, hlo, hs, _ => by
    by_cases hb : b = resetByte font a
    · simp [Memory.write, hb, Memory.wfFrom]
    · simp only [Memory.write, hb, if_false, Memory.wfFrom, Bool.and_eq_true, decide_eq_true_eq]
      exact ⟨⟨⟨hlo, hs⟩, hb⟩, trivial⟩
  | (c, d) :: m, lo, a, b, hlo, hs, h => by
    have h' := h
    simp only [Memory.wfFrom, Bool.and_eq_true, decide_eq_true_eq] at h'
    obtain ⟨⟨⟨h1, h2⟩, h3⟩, h4⟩ := h'
    unfold Memory.write
    split
    · rename_i hlt
      split
      · exact h
      · rename_i hb
        simp only [Memory.wfFrom, Bool.and_eq_true, decide_eq_true_eq]
        exact ⟨⟨⟨hlo, hs⟩, hb⟩, ⟨⟨by omega, h2⟩, h3⟩, h4⟩
    · split
      · rename_i hne hc
        subst hc
        split
        · exact Memory.wfFrom_mono (by omega) h4
        · rename_i hb
          simp only [Memory.wfFrom, Bool.and_eq_true, decide_eq_true_eq]
          exact ⟨⟨⟨hlo, hs⟩, hb⟩, h4⟩
      · rename_i hlt hne
        simp only [Memory.wfFrom, Bool.and_eq_true, decide_eq_true_eq]
        exact ⟨⟨⟨h1, h2⟩, h3⟩, Memory.wfFrom_write a b (by omega) hs h4⟩

theorem Memory.wf_write {m : Memory} {a : Nat} (b : Byte) (ha : a < 4096) (h : m.wf font = true) :
    (m.write font a b).wf font = true :=
  Memory.wfFrom_write a b (Nat.zero_le a) ha h

theorem Memory.read_write_of_wf {m : Memory} (a : Nat) (b : Byte) (a' : Nat) (h : m.wf font = true) :
    (m.write font a b).read font a' = if a' = a then b else m.read font a' :=
  Memory.read_write a b a' h

/-- Two canonical memories that read the same at every address are the same list. -/
theorem Memory.ext_of_read : ∀ {m m' : Memory} {lo : Nat}, Memory.wfFrom font lo m = true →
    Memory.wfFrom font lo m' = true → (∀ a, Memory.read m font a = Memory.read m' font a) → m = m'
  | [], [], _, _, _, _ => rfl
  | [], (c, d) :: m', lo, _, h, hr => by
    simp only [Memory.wfFrom, Bool.and_eq_true, decide_eq_true_eq] at h
    exact absurd (by simpa [Memory.read_cons] using (hr c).symm) h.1.2
  | (c, d) :: m, [], lo, h, _, hr => by
    simp only [Memory.wfFrom, Bool.and_eq_true, decide_eq_true_eq] at h
    exact absurd (by simpa [Memory.read_cons] using hr c) h.1.2
  | (c, d) :: m, (c', d') :: m', lo, h, h', hr => by
    simp only [Memory.wfFrom, Bool.and_eq_true, decide_eq_true_eq] at h h'
    obtain ⟨⟨⟨h1, -⟩, h3⟩, h4⟩ := h
    obtain ⟨⟨⟨h1', -⟩, h3'⟩, h4'⟩ := h'
    have hc : c = c' := by
      rcases Nat.lt_trichotomy c c' with hlt | heq | hgt
      · have := hr c
        rw [Memory.read_cons, if_pos rfl, Memory.read_cons, if_neg (by simp only; omega),
          Memory.read_of_lt h4' (by omega)] at this
        exact absurd this h3
      · exact heq
      · have := hr c'
        rw [Memory.read_cons, if_neg (by simp only; omega), Memory.read_of_lt h4 (by omega),
          Memory.read_cons, if_pos rfl] at this
        exact absurd this.symm h3'
    subst hc
    have hd : d = d' := by simpa [Memory.read_cons] using hr c
    subst hd
    have hm : m = m' := Memory.ext_of_read h4 h4' fun a => by
      by_cases ha : c = a
      · rw [Memory.read_of_lt h4 (by omega), Memory.read_of_lt h4' (by omega)]
      · simpa [Memory.read_cons, ha] using hr a
    rw [hm]

/-- Bytes written one after the other: each address in the block reads its byte, every other as
before (R207). -/
theorem Memory.read_writeBytes : ∀ (bs : List Byte) {m : Memory} (base a : Nat), m.wf font = true →
    base + bs.length ≤ 4096 →
    (m.writeBytes font base bs).wf font = true ∧
    (m.writeBytes font base bs).read font a =
      if base ≤ a ∧ a < base + bs.length then bs.getD (a - base) 0 else m.read font a
  | [], m, base, a, h, _ => ⟨h, by
      rw [if_neg (by simp only [List.length_nil]; omega)]
      rfl⟩
  | b :: bs, m, base, a, h, hle => by
    simp only [List.length_cons] at hle ⊢
    obtain ⟨hwf, hread⟩ := Memory.read_writeBytes bs (base + 1) a
      (Memory.wf_write b (by omega : base < 4096) h) (by omega)
    refine ⟨hwf, hread.trans ?_⟩
    rw [Memory.read_write_of_wf base b a h]
    by_cases ha : a = base
    · subst ha
      rw [if_neg (by omega), if_pos rfl, if_pos (by omega)]
      simp
    · by_cases hin : base + 1 ≤ a ∧ a < base + 1 + bs.length
      · rw [if_pos hin, if_pos (by omega)]
        obtain ⟨k, rfl⟩ : ∃ k, a = base + 1 + k := ⟨a - (base + 1), by omega⟩
        simp [show base + 1 + k - base = k + 1 by omega]
      · rw [if_neg hin, if_neg ha, if_neg (by omega)]

end Sys2Proof.Machine
end

