-- ==== Sys2Proof/Laws/State.lean ====
section
/-! SUPPORT. One lemma per field of the state for every named update, and the registers after each. -/

namespace Sys2Proof.Machine

variable (s : State)

@[simp] theorem State.setReg_v (k : RegIdx) (b : Byte) : (s.setReg k b).v = s.v.set k.val b := rfl
@[simp] theorem State.setReg_i (k : RegIdx) (b : Byte) : (s.setReg k b).i = s.i := rfl
@[simp] theorem State.setReg_pc (k : RegIdx) (b : Byte) : (s.setReg k b).pc = s.pc := rfl
@[simp] theorem State.setReg_sp (k : RegIdx) (b : Byte) : (s.setReg k b).sp = s.sp := rfl
@[simp] theorem State.setReg_stack (k : RegIdx) (b : Byte) : (s.setReg k b).stack = s.stack := rfl
@[simp] theorem State.setReg_delayTimer (k : RegIdx) (b : Byte) : (s.setReg k b).delayTimer = s.delayTimer := rfl
@[simp] theorem State.setReg_soundTimer (k : RegIdx) (b : Byte) : (s.setReg k b).soundTimer = s.soundTimer := rfl
@[simp] theorem State.setReg_mem (k : RegIdx) (b : Byte) : (s.setReg k b).mem = s.mem := rfl
@[simp] theorem State.setReg_fb (k : RegIdx) (b : Byte) : (s.setReg k b).fb = s.fb := rfl
@[simp] theorem State.setReg_key (k : RegIdx) (b : Byte) : (s.setReg k b).key = s.key := rfl
@[simp] theorem State.setReg_redraw (k : RegIdx) (b : Byte) : (s.setReg k b).redraw = s.redraw := rfl
@[simp] theorem State.setReg_fault (k : RegIdx) (b : Byte) : (s.setReg k b).fault = s.fault := rfl
@[simp] theorem State.setReg_params (k : RegIdx) (b : Byte) : (s.setReg k b).params = s.params := rfl
@[simp] theorem State.setReg_draws (k : RegIdx) (b : Byte) : (s.setReg k b).draws = s.draws := rfl

@[simp] theorem State.advance_v : s.advance.v = s.v := rfl
@[simp] theorem State.advance_i : s.advance.i = s.i := rfl
@[simp] theorem State.advance_pc : s.advance.pc = s.pc + 2 := rfl
@[simp] theorem State.advance_sp : s.advance.sp = s.sp := rfl
@[simp] theorem State.advance_stack : s.advance.stack = s.stack := rfl
@[simp] theorem State.advance_delayTimer : s.advance.delayTimer = s.delayTimer := rfl
@[simp] theorem State.advance_soundTimer : s.advance.soundTimer = s.soundTimer := rfl
@[simp] theorem State.advance_mem : s.advance.mem = s.mem := rfl
@[simp] theorem State.advance_fb : s.advance.fb = s.fb := rfl
@[simp] theorem State.advance_key : s.advance.key = s.key := rfl
@[simp] theorem State.advance_redraw : s.advance.redraw = s.redraw := rfl
@[simp] theorem State.advance_fault : s.advance.fault = s.fault := rfl
@[simp] theorem State.advance_params : s.advance.params = s.params := rfl
@[simp] theorem State.advance_draws : s.advance.draws = s.draws := rfl

@[simp] theorem State.retreat_v : s.retreat.v = s.v := rfl
@[simp] theorem State.retreat_i : s.retreat.i = s.i := rfl
@[simp] theorem State.retreat_pc : s.retreat.pc = s.pc - 2 := rfl
@[simp] theorem State.retreat_sp : s.retreat.sp = s.sp := rfl
@[simp] theorem State.retreat_stack : s.retreat.stack = s.stack := rfl
@[simp] theorem State.retreat_delayTimer : s.retreat.delayTimer = s.delayTimer := rfl
@[simp] theorem State.retreat_soundTimer : s.retreat.soundTimer = s.soundTimer := rfl
@[simp] theorem State.retreat_mem : s.retreat.mem = s.mem := rfl
@[simp] theorem State.retreat_fb : s.retreat.fb = s.fb := rfl
@[simp] theorem State.retreat_key : s.retreat.key = s.key := rfl
@[simp] theorem State.retreat_redraw : s.retreat.redraw = s.redraw := rfl
@[simp] theorem State.retreat_fault : s.retreat.fault = s.fault := rfl
@[simp] theorem State.retreat_params : s.retreat.params = s.params := rfl
@[simp] theorem State.retreat_draws : s.retreat.draws = s.draws := rfl

@[simp] theorem State.latchFault_v (c : Fault) (op : Word) (a : Nat) : (s.latchFault c op a).v = s.v := rfl
@[simp] theorem State.latchFault_i (c : Fault) (op : Word) (a : Nat) : (s.latchFault c op a).i = s.i := rfl
@[simp] theorem State.latchFault_pc (c : Fault) (op : Word) (a : Nat) : (s.latchFault c op a).pc = s.pc := rfl
@[simp] theorem State.latchFault_sp (c : Fault) (op : Word) (a : Nat) : (s.latchFault c op a).sp = s.sp := rfl
@[simp] theorem State.latchFault_stack (c : Fault) (op : Word) (a : Nat) : (s.latchFault c op a).stack = s.stack := rfl
@[simp] theorem State.latchFault_delayTimer (c : Fault) (op : Word) (a : Nat) : (s.latchFault c op a).delayTimer = s.delayTimer := rfl
@[simp] theorem State.latchFault_soundTimer (c : Fault) (op : Word) (a : Nat) : (s.latchFault c op a).soundTimer = s.soundTimer := rfl
@[simp] theorem State.latchFault_mem (c : Fault) (op : Word) (a : Nat) : (s.latchFault c op a).mem = s.mem := rfl
@[simp] theorem State.latchFault_fb (c : Fault) (op : Word) (a : Nat) : (s.latchFault c op a).fb = s.fb := rfl
@[simp] theorem State.latchFault_key (c : Fault) (op : Word) (a : Nat) : (s.latchFault c op a).key = s.key := rfl
@[simp] theorem State.latchFault_redraw (c : Fault) (op : Word) (a : Nat) : (s.latchFault c op a).redraw = s.redraw := rfl
@[simp] theorem State.latchFault_fault (c : Fault) (op : Word) (a : Nat) : (s.latchFault c op a).fault = some ⟨c, s.pc, op, a⟩ := rfl
@[simp] theorem State.latchFault_params (c : Fault) (op : Word) (a : Nat) : (s.latchFault c op a).params = s.params := rfl
@[simp] theorem State.latchFault_draws (c : Fault) (op : Word) (a : Nat) : (s.latchFault c op a).draws = s.draws := rfl

@[simp] theorem State.raise_v (c : Fault) (op : Word) (a : Nat) : (s.raise c op a).v = s.v := rfl
@[simp] theorem State.raise_i (c : Fault) (op : Word) (a : Nat) : (s.raise c op a).i = s.i := rfl
@[simp] theorem State.raise_pc (c : Fault) (op : Word) (a : Nat) : (s.raise c op a).pc = s.pc - 2 := rfl
@[simp] theorem State.raise_sp (c : Fault) (op : Word) (a : Nat) : (s.raise c op a).sp = s.sp := rfl
@[simp] theorem State.raise_stack (c : Fault) (op : Word) (a : Nat) : (s.raise c op a).stack = s.stack := rfl
@[simp] theorem State.raise_delayTimer (c : Fault) (op : Word) (a : Nat) : (s.raise c op a).delayTimer = s.delayTimer := rfl
@[simp] theorem State.raise_soundTimer (c : Fault) (op : Word) (a : Nat) : (s.raise c op a).soundTimer = s.soundTimer := rfl
@[simp] theorem State.raise_mem (c : Fault) (op : Word) (a : Nat) : (s.raise c op a).mem = s.mem := rfl
@[simp] theorem State.raise_fb (c : Fault) (op : Word) (a : Nat) : (s.raise c op a).fb = s.fb := rfl
@[simp] theorem State.raise_key (c : Fault) (op : Word) (a : Nat) : (s.raise c op a).key = s.key := rfl
@[simp] theorem State.raise_redraw (c : Fault) (op : Word) (a : Nat) : (s.raise c op a).redraw = s.redraw := rfl
@[simp] theorem State.raise_fault (c : Fault) (op : Word) (a : Nat) : (s.raise c op a).fault = some ⟨c, s.pc - 2, op, a⟩ := rfl
@[simp] theorem State.raise_params (c : Fault) (op : Word) (a : Nat) : (s.raise c op a).params = s.params := rfl
@[simp] theorem State.raise_draws (c : Fault) (op : Word) (a : Nat) : (s.raise c op a).draws = s.draws := rfl

@[simp] theorem State.skipIf_v (c : Bool) : (s.skipIf c).v = s.v := rfl
@[simp] theorem State.skipIf_i (c : Bool) : (s.skipIf c).i = s.i := rfl
@[simp] theorem State.skipIf_pc (c : Bool) : (s.skipIf c).pc = if c then s.pc + 2 else s.pc := rfl
@[simp] theorem State.skipIf_sp (c : Bool) : (s.skipIf c).sp = s.sp := rfl
@[simp] theorem State.skipIf_stack (c : Bool) : (s.skipIf c).stack = s.stack := rfl
@[simp] theorem State.skipIf_delayTimer (c : Bool) : (s.skipIf c).delayTimer = s.delayTimer := rfl
@[simp] theorem State.skipIf_soundTimer (c : Bool) : (s.skipIf c).soundTimer = s.soundTimer := rfl
@[simp] theorem State.skipIf_mem (c : Bool) : (s.skipIf c).mem = s.mem := rfl
@[simp] theorem State.skipIf_fb (c : Bool) : (s.skipIf c).fb = s.fb := rfl
@[simp] theorem State.skipIf_key (c : Bool) : (s.skipIf c).key = s.key := rfl
@[simp] theorem State.skipIf_redraw (c : Bool) : (s.skipIf c).redraw = s.redraw := rfl
@[simp] theorem State.skipIf_fault (c : Bool) : (s.skipIf c).fault = s.fault := rfl
@[simp] theorem State.skipIf_params (c : Bool) : (s.skipIf c).params = s.params := rfl
@[simp] theorem State.skipIf_draws (c : Bool) : (s.skipIf c).draws = s.draws := rfl

@[simp] theorem State.setResult_v (x : RegIdx) (p : Byte × Byte) : (s.setResult x p).v = (s.v.set x.val p.1).set 15 p.2 := rfl
@[simp] theorem State.setResult_i (x : RegIdx) (p : Byte × Byte) : (s.setResult x p).i = s.i := rfl
@[simp] theorem State.setResult_pc (x : RegIdx) (p : Byte × Byte) : (s.setResult x p).pc = s.pc := rfl
@[simp] theorem State.setResult_sp (x : RegIdx) (p : Byte × Byte) : (s.setResult x p).sp = s.sp := rfl
@[simp] theorem State.setResult_stack (x : RegIdx) (p : Byte × Byte) : (s.setResult x p).stack = s.stack := rfl
@[simp] theorem State.setResult_delayTimer (x : RegIdx) (p : Byte × Byte) : (s.setResult x p).delayTimer = s.delayTimer := rfl
@[simp] theorem State.setResult_soundTimer (x : RegIdx) (p : Byte × Byte) : (s.setResult x p).soundTimer = s.soundTimer := rfl
@[simp] theorem State.setResult_mem (x : RegIdx) (p : Byte × Byte) : (s.setResult x p).mem = s.mem := rfl
@[simp] theorem State.setResult_fb (x : RegIdx) (p : Byte × Byte) : (s.setResult x p).fb = s.fb := rfl
@[simp] theorem State.setResult_key (x : RegIdx) (p : Byte × Byte) : (s.setResult x p).key = s.key := rfl
@[simp] theorem State.setResult_redraw (x : RegIdx) (p : Byte × Byte) : (s.setResult x p).redraw = s.redraw := rfl
@[simp] theorem State.setResult_fault (x : RegIdx) (p : Byte × Byte) : (s.setResult x p).fault = s.fault := rfl
@[simp] theorem State.setResult_params (x : RegIdx) (p : Byte × Byte) : (s.setResult x p).params = s.params := rfl
@[simp] theorem State.setResult_draws (x : RegIdx) (p : Byte × Byte) : (s.setResult x p).draws = s.draws := rfl

@[simp] theorem State.read_setReg (k : RegIdx) (b : Byte) (a' : Nat) : (s.setReg k b).read a' = s.read a' := rfl
@[simp] theorem State.read_advance (a' : Nat) : s.advance.read a' = s.read a' := rfl
@[simp] theorem State.read_retreat (a' : Nat) : s.retreat.read a' = s.read a' := rfl
@[simp] theorem State.read_latchFault (c : Fault) (op : Word) (a a' : Nat) : (s.latchFault c op a).read a' = s.read a' := rfl
@[simp] theorem State.read_raise (c : Fault) (op : Word) (a a' : Nat) : (s.raise c op a).read a' = s.read a' := rfl
@[simp] theorem State.read_skipIf (c : Bool) (a' : Nat) : (s.skipIf c).read a' = s.read a' := rfl
@[simp] theorem State.read_setResult (x : RegIdx) (p : Byte × Byte) (a' : Nat) : (s.setResult x p).read a' = s.read a' := rfl

/-- Reading a register after writing one (R10). -/
theorem State.reg_setReg (j k : RegIdx) (b : Byte) :
    (s.setReg j b).reg k = if j = k then b else s.reg k := by
  unfold State.reg State.setReg
  rw [Vector.getElem_set]
  simp [Fin.ext_iff]

@[simp] theorem State.reg_setReg_self (k : RegIdx) (b : Byte) : (s.setReg k b).reg k = b := by
  simp [State.reg_setReg]

theorem State.reg_setReg_of_ne {j k : RegIdx} (b : Byte) (h : j ≠ k) :
    (s.setReg j b).reg k = s.reg k := by
  simp [State.reg_setReg, h]

@[simp] theorem State.reg_advance (k : RegIdx) : s.advance.reg k = s.reg k := rfl
@[simp] theorem State.reg_retreat (k : RegIdx) : s.retreat.reg k = s.reg k := rfl
@[simp] theorem State.reg_latchFault (k : RegIdx) (c : Fault) (op : Word) (a : Nat) :
    (s.latchFault c op a).reg k = s.reg k := rfl
@[simp] theorem State.reg_raise (k : RegIdx) (c : Fault) (op : Word) (a : Nat) :
    (s.raise c op a).reg k = s.reg k := rfl
@[simp] theorem State.reg_skipIf (k : RegIdx) (c : Bool) : (s.skipIf c).reg k = s.reg k := rfl

/-- The flag is written last: it survives when the destination is register 15 (R120). -/
theorem State.reg_setResult (x k : RegIdx) (p : Byte × Byte) :
    (s.setResult x p).reg k = if k = 15 then p.2 else if k = x then p.1 else s.reg k := by
  unfold State.setResult
  rw [State.reg_setReg, State.reg_setReg]
  simp only [eq_comm]

/-- The advance undone: a raise, or a wait, leaves the state before the step (R161, R184). -/
@[simp] theorem State.retreat_advance : s.advance.retreat = s := by
  unfold State.retreat State.advance
  simp

/-- A fault raised after the advance changes the state before the step by the latch alone (R184). -/
theorem State.raise_advance (c : Fault) (op : Word) (a : Nat) :
    s.advance.raise c op a = s.latchFault c op a := by
  unfold State.raise
  rw [State.retreat_advance]

/-- Two states with the same registers have the same register file. -/
theorem State.v_eq_of_reg {s t : State} (h : ∀ k, t.reg k = s.reg k) : t.v = s.v := by
  apply Vector.ext
  intro k hk
  exact h ⟨k, hk⟩

end Sys2Proof.Machine
end

