-- ==== Sys2Proof/Laws/Ops.lean ====
section
/-! SUPPORT. What each shared operation can do, said once: loops, the bounds check, push and pop,
accesses, fetch, and the framebuffer's cells. -/

namespace Sys2Proof.Machine

@[simp] theorem forEach_zero {σ : Type} (body : Nat → σ → σ) (s : σ) : forEach 0 body s = s := rfl

theorem forEach_succ {σ : Type} (n : Nat) (body : Nat → σ → σ) (s : σ) :
    forEach (n + 1) body s = body n (forEach n body s) := rfl

/-- A property that every round keeps holds after the loop. -/
theorem forEach_invariant {σ : Type} {P : σ → Prop} {body : Nat → σ → σ} {s : σ} :
    ∀ {n : Nat}, P s → (∀ k t, k < n → P t → P (body k t)) → P (forEach n body s)
  | 0, h0, _ => h0
  | n + 1, h0, hs =>
    hs n _ (Nat.lt_succ_self n)
      (forEach_invariant h0 fun k t hk ht => hs k t (Nat.lt_succ_of_lt hk) ht)

/-- The bounds check passes exactly when no byte is touched or the last one is below 4096 (R46). -/
theorem firstOut_eq_none {base count : Nat} :
    firstOut base count = none ↔ count = 0 ∨ base + count ≤ 4096 := by
  by_cases h : count = 0 ∨ base + count ≤ 4096 <;> simp [firstOut, h]

/-- The bounds check fails with the lowest of the addresses that is 4096 or more (R47). -/
theorem firstOut_eq_some {base count a : Nat} :
    firstOut base count = some a ↔ count ≠ 0 ∧ 4096 < base + count ∧ a = max base 4096 := by
  by_cases h : count = 0 ∨ base + count ≤ 4096
  · simp only [firstOut, Config.memSize, h, if_true, reduceCtorEq, false_iff]
    omega
  · simp only [firstOut, Config.memSize, h, if_false, Option.some.injEq, eq_comm]
    constructor
    · exact fun ha => ⟨by omega, by omega, ha⟩
    · exact fun ha => ha.2.2

/-- The address of a failed bounds check is one of those asked for, out of range, and no lower one
is (R47). -/
theorem firstOut_lowest {base count a : Nat} (h : firstOut base count = some a) :
    4096 ≤ a ∧ base ≤ a ∧ a < base + count ∧ ∀ b, base ≤ b → b < a → b < 4096 := by
  obtain ⟨h0, h1, rfl⟩ := firstOut_eq_some.1 h
  refine ⟨by omega, by omega, by omega, fun b _ hb => ?_⟩
  rcases Nat.le_total base 4096 with hle | hge
  · rw [Nat.max_eq_right hle] at hb
    exact hb
  · rw [Nat.max_eq_left hge] at hb
    omega

/-- An instruction that touches bytes at `i` answers a next state: its own effect, or the fault with
nothing else changed (R47, R184). -/
theorem State.accessing_cases (s : State) (op : Word) (count : Nat) (done : State) :
    (firstOut s.i.toNat count = none ∧ s.accessing op count done = .next done) ∨
    (∃ a, firstOut s.i.toNat count = some a ∧
      s.accessing op count done = .next (s.raise .memoryOutOfBounds op a)) := by
  unfold State.accessing
  cases h : firstOut s.i.toNat count with
  | none => exact .inl ⟨rfl, rfl⟩
  | some a => exact .inr ⟨a, rfl, rfl⟩

theorem State.accessing_of_fits {s : State} {count : Nat} (op : Word) (done : State)
    (h : s.i.toNat + count ≤ 4096) : s.accessing op count done = .next done := by
  unfold State.accessing
  rw [firstOut_eq_none.2 (.inr h)]

theorem State.accessing_of_out {s : State} {count : Nat} (op : Word) (done : State)
    (h0 : count ≠ 0) (h : 4096 < s.i.toNat + count) :
    s.accessing op count done =
      .next (s.raise .memoryOutOfBounds op (max s.i.toNat 4096)) := by
  unfold State.accessing
  rw [firstOut_eq_some.2 ⟨h0, h, rfl⟩]

/-- A push that fits writes the cell at `sp` and counts it (R17). -/
theorem State.push_of_lt {s : State} (e : Word) (h : s.sp.val < 16) :
    s.push e = some { s with stack := s.stack.set s.sp.val e, sp := ⟨s.sp.val + 1, by omega⟩ } := by
  unfold State.push
  rw [dif_pos h]

theorem State.push_of_full {s : State} (e : Word) (h : s.sp.val = 16) : s.push e = none := by
  unfold State.push
  rw [dif_neg (by omega)]

/-- A pop of a stack that holds an entry answers the newest and forgets it (R18). -/
theorem State.pop_of_pos {s : State} (h : 0 < s.sp.val) :
    s.pop = some (s.stack[s.sp.val - 1]'(by omega),
      { s with sp := ⟨s.sp.val - 1, by omega⟩ }) := by
  unfold State.pop
  rw [dif_pos h]

theorem State.pop_of_empty {s : State} (h : s.sp.val = 0) : s.pop = none := by
  unfold State.pop
  rw [dif_neg (by omega)]

/-- The fetch is of two bytes below 4096, the lower address first (R41, R86). -/
theorem State.fetch_of_fits {s : State} (h : s.pc.toNat + 1 < 4096) :
    s.fetch = .ok (wordOfBytes (s.read s.pc.toNat) (s.read (s.pc.toNat + 1))) := by
  unfold State.fetch
  rw [firstOut_eq_none.2 (.inr (by omega))]

/-- The fetch fails with the lowest address that is out of range (R86). -/
theorem State.fetch_of_out {s : State} (h : 4096 ≤ s.pc.toNat + 1) :
    s.fetch = .error (max s.pc.toNat 4096) := by
  unfold State.fetch
  rw [firstOut_eq_some.2 ⟨by omega, by omega, rfl⟩]

/-- What fetching and decoding can answer (R86, R88, R90). -/
theorem State.fetchInstr_cases (s : State) :
    (4096 ≤ s.pc.toNat + 1 ∧
      s.fetchInstr = .error (s.latchFault .memoryOutOfBounds 0 (max s.pc.toNat 4096))) ∨
    (∃ op e, s.pc.toNat + 1 < 4096 ∧ s.fetch = .ok op ∧ decode op = .error e ∧
      s.fetchInstr = .error (s.latchFault .unknownOpcode op 0)) ∨
    (∃ op i, s.pc.toNat + 1 < 4096 ∧ s.fetch = .ok op ∧ decode op = .ok i ∧
      s.fetchInstr = .ok i) := by
  by_cases h : s.pc.toNat + 1 < 4096
  · right
    have hf := State.fetch_of_fits h
    cases hd : decode (wordOfBytes (s.read s.pc.toNat) (s.read (s.pc.toNat + 1))) with
    | error e => exact .inl ⟨_, e, h, hf, hd, by simp [State.fetchInstr, hf, hd]⟩
    | ok i => exact .inr ⟨_, i, h, hf, hd, by simp [State.fetchInstr, hf, hd]⟩
  · left
    have h' : 4096 ≤ s.pc.toNat + 1 := by omega
    exact ⟨h', by simp [State.fetchInstr, State.fetch_of_out h']⟩

/-- Inverting a cell inverts it and leaves every other cell (R145). -/
theorem Framebuffer.cell_toggle (fb : Framebuffer) (x x' : Fin 64) (y y' : Fin 32) :
    (fb.toggle x y).cell x' y' = (fb.cell x' y' ^^ (decide (x' = x) && decide (y' = y))) := by
  unfold Framebuffer.toggle Framebuffer.cell
  rw [Vector.getElem_set]
  by_cases hy : y.val = y'.val
  · have hy' : y' = y := Fin.ext hy.symm
    subst hy'
    simp only [if_true, BitVec.getLsbD_xor, decide_true, Bool.and_true]
    congr 1
    by_cases hx : x' = x
    · subst hx
      simp
    · have : x'.val ≠ x.val := fun h => hx (Fin.ext h)
      simp only [BitVec.getLsbD_shiftLeft, BitVec.getLsbD_one, hx, decide_false]
      simp
      omega
  · have : y' ≠ y := fun h => hy (by rw [h])
    simp [hy, this]

/-- A cleared framebuffer has no lit cell (R100). -/
@[simp] theorem Framebuffer.cell_clear (x : Fin 64) (y : Fin 32) :
    Framebuffer.clear.cell x y = false := by
  unfold Framebuffer.clear Framebuffer.cell
  simp

/-- Two framebuffers with the same cells are the same. -/
theorem Framebuffer.ext_of_cell {fb fb' : Framebuffer}
    (h : ∀ x y, fb.cell x y = fb'.cell x y) : fb = fb' := by
  apply Vector.ext
  intro y hy
  apply BitVec.eq_of_getLsbD_eq
  intro x hx
  exact h ⟨x, hx⟩ ⟨y, hy⟩

/-- A flag is 0 or 1 (R13). -/
theorem flagByte_cases (c : Bool) : flagByte c = 0 ∨ flagByte c = 1 := by
  cases c
  · exact .inl rfl
  · exact .inr rfl

/-- The key reported is pressed, and one is reported whenever one is pressed (R161). -/
theorem selectKey_mem {table : List (List KeyIdx × KeyIdx)} {pressed : List KeyIdx} {k : KeyIdx}
    (h : selectKey table pressed = some k) : k ∈ pressed := by
  unfold selectKey at h
  split at h
  · split at h
    · rename_i hm
      exact Option.some.inj h ▸ hm
    · exact List.mem_of_mem_head? h
  · exact List.mem_of_mem_head? h

theorem selectKey_eq_none {table : List (List KeyIdx × KeyIdx)} {pressed : List KeyIdx} :
    selectKey table pressed = none ↔ pressed = [] := by
  unfold selectKey
  split
  · split
    · rename_i hm
      simp only [reduceCtorEq, false_iff]
      exact List.ne_nil_of_mem hm
    · exact List.head?_eq_none_iff
  · exact List.head?_eq_none_iff

theorem mem_allKeys : ∀ k : KeyIdx, k ∈ allKeys := by decide

/-- A key is in the set of pressed keys exactly when its level is 1 (R161). -/
theorem State.mem_pressedKeys {s : State} {k : KeyIdx} :
    k ∈ s.pressedKeys ↔ s.key[k.val] = true := by
  unfold State.pressedKeys State.keyDown
  rw [List.mem_filter]
  constructor
  · exact fun h => h.2
  · intro h
    exact ⟨mem_allKeys k, h⟩

end Sys2Proof.Machine
end

