-- ==== Sys2Proof/Laws/PerInstr.lean ====
section
/-! SUPPORT. For every instruction: its word is covered by its own row of the opcode map, and that row
stands in the map (R70). The word is the encoder's, the row's match and mask are R70's. -/

namespace Sys2Proof.Laws

theorem covers_formatA (m : String) (n3 : BitVec 4) (nnn : BitVec 12) :
    (MapRow.mk m (n3 ++ 0#12) 0xF000).covers (formatA n3 nnn) = true := by
  have h : (n3 ++ nnn) &&& (0xF#4 ++ 0#12) = (n3 ++ 0#12 : BitVec (4 + 12)) := by
    rw [BitVec.and_append, BitVec.and_zero, show (0xF#4) = BitVec.allOnes 4 from rfl,
      BitVec.and_allOnes]
  exact beq_iff_eq.2 h

theorem covers_formatI (m : String) (n3 : BitVec 4) (x : RegIdx) (nn : Byte) :
    (MapRow.mk m (n3 ++ 0#12) 0xF000).covers (formatI n3 x nn) = true := by
  have h : (n3 ++ nibble x ++ nn) &&& (0xF#4 ++ 0#4 ++ 0#8) =
      (n3 ++ 0#4 ++ 0#8 : BitVec (4 + 4 + 8)) := by
    rw [BitVec.and_append, BitVec.and_append, BitVec.and_zero, BitVec.and_zero,
      show (0xF#4) = BitVec.allOnes 4 from rfl, BitVec.and_allOnes]
  have h' : (n3 ++ 0#4 ++ 0#8 : BitVec (4 + 4 + 8)) = (n3 ++ 0#12 : BitVec (4 + 12)) := by
    clear h
    revert n3
    decide
  exact beq_iff_eq.2 (h.trans h')

theorem covers_formatD (m : String) (x y : RegIdx) (n : Fin 16) :
    (MapRow.mk m 0xD000 0xF000).covers (formatD x y n) = true := by
  have h : (0xD#4 ++ nibble x ++ nibble y ++ nibble n) &&& (0xF#4 ++ 0#4 ++ 0#4 ++ 0#4) =
      (0xD#4 ++ 0#4 ++ 0#4 ++ 0#4 : BitVec (4 + 4 + 4 + 4)) := by
    rw [BitVec.and_append, BitVec.and_append, BitVec.and_append, BitVec.and_zero,
      BitVec.and_zero, BitVec.and_zero, show (0xF#4) = BitVec.allOnes 4 from rfl,
      BitVec.and_allOnes]
  exact beq_iff_eq.2 h

theorem covers_formatR (m : String) (n3 : BitVec 4) (x y : RegIdx) (f : BitVec 4) :
    (MapRow.mk m (n3 ++ 0#8 ++ f) 0xF00F).covers (formatR n3 x y f) = true := by
  have h : (n3 ++ nibble x ++ nibble y ++ f) &&& (0xF#4 ++ 0#4 ++ 0#4 ++ 0xF#4) =
      (n3 ++ 0#4 ++ 0#4 ++ f : BitVec (4 + 4 + 4 + 4)) := by
    rw [BitVec.and_append, BitVec.and_append, BitVec.and_append, BitVec.and_zero,
      BitVec.and_zero, show (0xF#4) = BitVec.allOnes 4 from rfl, BitVec.and_allOnes,
      BitVec.and_allOnes]
  have h' : (n3 ++ 0#4 ++ 0#4 ++ f : BitVec (4 + 4 + 4 + 4)) =
      (n3 ++ 0#8 ++ f : BitVec (4 + 8 + 4)) := by
    clear h
    revert n3 f
    decide
  exact beq_iff_eq.2 (h.trans h')

theorem covers_formatS (m : String) (n3 : BitVec 4) (x : RegIdx) (f : Byte) :
    (MapRow.mk m (n3 ++ 0#4 ++ f) 0xF0FF).covers (formatS n3 x f) = true := by
  have h : (n3 ++ nibble x ++ f) &&& (0xF#4 ++ 0#4 ++ 0xFF#8) =
      (n3 ++ 0#4 ++ f : BitVec (4 + 4 + 8)) := by
    rw [BitVec.and_append, BitVec.and_append, BitVec.and_zero,
      show (0xF#4) = BitVec.allOnes 4 from rfl, show (0xFF#8) = BitVec.allOnes 8 from rfl,
      BitVec.and_allOnes, BitVec.and_allOnes]
  exact beq_iff_eq.2 h

/-- The row of the instruction stands in the opcode map and covers the instruction's word (R70). -/
def RowOfMap.Statement (i : Instr) : Prop := i.row ∈ opcodeMap ∧ i.row.covers (encode i) = true

theorem RowOfMap.op00E0 : RowOfMap.Statement .op00E0 :=
  ⟨List.mem_of_getElem? (i := 0) rfl, rfl⟩

theorem RowOfMap.op00EE : RowOfMap.Statement .op00EE :=
  ⟨List.mem_of_getElem? (i := 1) rfl, rfl⟩

theorem RowOfMap.op1NNN (nnn : BitVec 12) : RowOfMap.Statement (.op1NNN nnn) :=
  ⟨List.mem_of_getElem? (i := 2) rfl, covers_formatA "1NNN" 0x1 nnn⟩

theorem RowOfMap.op2NNN (nnn : BitVec 12) : RowOfMap.Statement (.op2NNN nnn) :=
  ⟨List.mem_of_getElem? (i := 3) rfl, covers_formatA "2NNN" 0x2 nnn⟩

theorem RowOfMap.op3XNN (x : RegIdx) (nn : Byte) : RowOfMap.Statement (.op3XNN x nn) :=
  ⟨List.mem_of_getElem? (i := 4) rfl, covers_formatI "3XNN" 0x3 x nn⟩

theorem RowOfMap.op4XNN (x : RegIdx) (nn : Byte) : RowOfMap.Statement (.op4XNN x nn) :=
  ⟨List.mem_of_getElem? (i := 5) rfl, covers_formatI "4XNN" 0x4 x nn⟩

theorem RowOfMap.op5XY0 (x : RegIdx) (y : RegIdx) : RowOfMap.Statement (.op5XY0 x y) :=
  ⟨List.mem_of_getElem? (i := 6) rfl, covers_formatR "5XY0" 0x5 x y 0x0⟩

theorem RowOfMap.op6XNN (x : RegIdx) (nn : Byte) : RowOfMap.Statement (.op6XNN x nn) :=
  ⟨List.mem_of_getElem? (i := 7) rfl, covers_formatI "6XNN" 0x6 x nn⟩

theorem RowOfMap.op7XNN (x : RegIdx) (nn : Byte) : RowOfMap.Statement (.op7XNN x nn) :=
  ⟨List.mem_of_getElem? (i := 8) rfl, covers_formatI "7XNN" 0x7 x nn⟩

theorem RowOfMap.op8XY0 (x : RegIdx) (y : RegIdx) : RowOfMap.Statement (.op8XY0 x y) :=
  ⟨List.mem_of_getElem? (i := 9) rfl, covers_formatR "8XY0" 0x8 x y 0x0⟩

theorem RowOfMap.op8XY1 (x : RegIdx) (y : RegIdx) : RowOfMap.Statement (.op8XY1 x y) :=
  ⟨List.mem_of_getElem? (i := 10) rfl, covers_formatR "8XY1" 0x8 x y 0x1⟩

theorem RowOfMap.op8XY2 (x : RegIdx) (y : RegIdx) : RowOfMap.Statement (.op8XY2 x y) :=
  ⟨List.mem_of_getElem? (i := 11) rfl, covers_formatR "8XY2" 0x8 x y 0x2⟩

theorem RowOfMap.op8XY3 (x : RegIdx) (y : RegIdx) : RowOfMap.Statement (.op8XY3 x y) :=
  ⟨List.mem_of_getElem? (i := 12) rfl, covers_formatR "8XY3" 0x8 x y 0x3⟩

theorem RowOfMap.op8XY4 (x : RegIdx) (y : RegIdx) : RowOfMap.Statement (.op8XY4 x y) :=
  ⟨List.mem_of_getElem? (i := 13) rfl, covers_formatR "8XY4" 0x8 x y 0x4⟩

theorem RowOfMap.op8XY5 (x : RegIdx) (y : RegIdx) : RowOfMap.Statement (.op8XY5 x y) :=
  ⟨List.mem_of_getElem? (i := 14) rfl, covers_formatR "8XY5" 0x8 x y 0x5⟩

theorem RowOfMap.op8XY6 (x : RegIdx) (y : RegIdx) : RowOfMap.Statement (.op8XY6 x y) :=
  ⟨List.mem_of_getElem? (i := 15) rfl, covers_formatR "8XY6" 0x8 x y 0x6⟩

theorem RowOfMap.op8XY7 (x : RegIdx) (y : RegIdx) : RowOfMap.Statement (.op8XY7 x y) :=
  ⟨List.mem_of_getElem? (i := 16) rfl, covers_formatR "8XY7" 0x8 x y 0x7⟩

theorem RowOfMap.op8XYE (x : RegIdx) (y : RegIdx) : RowOfMap.Statement (.op8XYE x y) :=
  ⟨List.mem_of_getElem? (i := 17) rfl, covers_formatR "8XYE" 0x8 x y 0xE⟩

theorem RowOfMap.op9XY0 (x : RegIdx) (y : RegIdx) : RowOfMap.Statement (.op9XY0 x y) :=
  ⟨List.mem_of_getElem? (i := 18) rfl, covers_formatR "9XY0" 0x9 x y 0x0⟩

theorem RowOfMap.opANNN (nnn : BitVec 12) : RowOfMap.Statement (.opANNN nnn) :=
  ⟨List.mem_of_getElem? (i := 19) rfl, covers_formatA "ANNN" 0xA nnn⟩

theorem RowOfMap.opBNNN (nnn : BitVec 12) : RowOfMap.Statement (.opBNNN nnn) :=
  ⟨List.mem_of_getElem? (i := 20) rfl, covers_formatA "BNNN" 0xB nnn⟩

theorem RowOfMap.opCXNN (x : RegIdx) (nn : Byte) : RowOfMap.Statement (.opCXNN x nn) :=
  ⟨List.mem_of_getElem? (i := 21) rfl, covers_formatI "CXNN" 0xC x nn⟩

theorem RowOfMap.opDXYN (x : RegIdx) (y : RegIdx) (n : Fin 16) : RowOfMap.Statement (.opDXYN x y n) :=
  ⟨List.mem_of_getElem? (i := 22) rfl, covers_formatD "DXYN" x y n⟩

theorem RowOfMap.opEX9E (x : RegIdx) : RowOfMap.Statement (.opEX9E x) :=
  ⟨List.mem_of_getElem? (i := 23) rfl, covers_formatS "EX9E" 0xE x 0x9E⟩

theorem RowOfMap.opEXA1 (x : RegIdx) : RowOfMap.Statement (.opEXA1 x) :=
  ⟨List.mem_of_getElem? (i := 24) rfl, covers_formatS "EXA1" 0xE x 0xA1⟩

theorem RowOfMap.opFX07 (x : RegIdx) : RowOfMap.Statement (.opFX07 x) :=
  ⟨List.mem_of_getElem? (i := 25) rfl, covers_formatS "FX07" 0xF x 0x07⟩

theorem RowOfMap.opFX0A (x : RegIdx) : RowOfMap.Statement (.opFX0A x) :=
  ⟨List.mem_of_getElem? (i := 26) rfl, covers_formatS "FX0A" 0xF x 0x0A⟩

theorem RowOfMap.opFX15 (x : RegIdx) : RowOfMap.Statement (.opFX15 x) :=
  ⟨List.mem_of_getElem? (i := 27) rfl, covers_formatS "FX15" 0xF x 0x15⟩

theorem RowOfMap.opFX18 (x : RegIdx) : RowOfMap.Statement (.opFX18 x) :=
  ⟨List.mem_of_getElem? (i := 28) rfl, covers_formatS "FX18" 0xF x 0x18⟩

theorem RowOfMap.opFX1E (x : RegIdx) : RowOfMap.Statement (.opFX1E x) :=
  ⟨List.mem_of_getElem? (i := 29) rfl, covers_formatS "FX1E" 0xF x 0x1E⟩

theorem RowOfMap.opFX29 (x : RegIdx) : RowOfMap.Statement (.opFX29 x) :=
  ⟨List.mem_of_getElem? (i := 30) rfl, covers_formatS "FX29" 0xF x 0x29⟩

theorem RowOfMap.opFX33 (x : RegIdx) : RowOfMap.Statement (.opFX33 x) :=
  ⟨List.mem_of_getElem? (i := 31) rfl, covers_formatS "FX33" 0xF x 0x33⟩

theorem RowOfMap.opFX55 (x : RegIdx) : RowOfMap.Statement (.opFX55 x) :=
  ⟨List.mem_of_getElem? (i := 32) rfl, covers_formatS "FX55" 0xF x 0x55⟩

theorem RowOfMap.opFX65 (x : RegIdx) : RowOfMap.Statement (.opFX65 x) :=
  ⟨List.mem_of_getElem? (i := 33) rfl, covers_formatS "FX65" 0xF x 0x65⟩

end Sys2Proof.Laws
end

