-- ==== Sys2Proof/Laws/Step.lean ====
section
/-! SUPPORT. What an instruction and a step can do, said once: an instruction either takes its own
effect, leaving the latch alone, or raises the one fault its rule gives it; and what the step adds. -/

namespace Sys2Proof.Machine

/-- The one fault an instruction can raise, with its condition and its recorded address (R93, R181,
R182). -/
def RaiseCond (i : Instr) (s : State) (c : Fault) (a : Nat) : Prop :=
  (c = .memoryOutOfBounds ∧ 0 < bytesTouched i ∧ 4096 < s.i.toNat + bytesTouched i ∧
    a = max s.i.toNat 4096) ∨
  (c = .stackOverflow ∧ s.sp.val = 16 ∧ (∃ nnn, i = .op2NNN nnn) ∧ a = 0) ∨
  (c = .stackUnderflow ∧ s.sp.val = 0 ∧ i = .op00EE ∧ a = 0)

/-- An access that fits completes; one that does not raises `MemoryOutOfBounds` (R47). -/
theorem accessing_exec {i : Instr} {s done : State}
    (h : exec i s = s.accessing (encode i) (bytesTouched i) done) (hd : done.fault = s.fault)
    (h2 : ∀ nnn, i ≠ .op2NNN nnn) (hE : i ≠ .op00EE) :
    (∃ t, exec i s = .next t ∧ t.fault = s.fault ∧ ∀ c a, ¬ RaiseCond i s c a) ∨
    (∃ c a, exec i s = .next (s.raise c (encode i) a) ∧ RaiseCond i s c a) := by
  rw [h]
  rcases s.accessing_cases (encode i) (bytesTouched i) done with ⟨hn, ha⟩ | ⟨a, hs, ha⟩
  · left
    refine ⟨_, ha, hd, fun c a hr => ?_⟩
    have := firstOut_eq_none.1 hn
    rcases hr with ⟨-, h3, h4, -⟩ | ⟨-, -, ⟨nnn, h3⟩, -⟩ | ⟨-, -, h3, -⟩
    · omega
    · exact h2 nnn h3
    · exact hE h3
  · right
    obtain ⟨h3, h4, h5⟩ := firstOut_eq_some.1 hs
    exact ⟨_, _, ha, .inl ⟨rfl, Nat.pos_of_ne_zero h3, h4, h5⟩⟩

/-- `00EE` with an entry held (R101). -/
theorem exec00EE_of_pos {s : State} (h : 0 < s.sp.val) :
    exec .op00EE s = .next { s with
      sp := ⟨s.sp.val - 1, by omega⟩, pc := s.stack[s.sp.val - 1]'(by omega) } := by
  simp only [exec, exec00EE]
  rw [State.pop_of_pos h]

/-- `00EE` with no entry held (R101). -/
theorem exec00EE_of_empty {s : State} (h : s.sp.val = 0) :
    exec .op00EE s = .next (s.raise .stackUnderflow (encode .op00EE) 0) := by
  simp only [exec, exec00EE]
  rw [State.pop_of_empty h]

/-- `2NNN` with room on the stack (R103). -/
theorem exec2NNN_of_lt {s : State} (nnn : BitVec 12) (h : s.sp.val < 16) :
    exec (.op2NNN nnn) s = .next { s with
      stack := s.stack.set s.sp.val s.pc, sp := ⟨s.sp.val + 1, by omega⟩, pc := zextNNN nnn } := by
  simp only [exec, exec2NNN]
  rw [State.push_of_lt _ h]

/-- `2NNN` with sixteen entries held (R103). -/
theorem exec2NNN_of_full {s : State} (nnn : BitVec 12) (h : s.sp.val = 16) :
    exec (.op2NNN nnn) s = .next (s.raise .stackOverflow (encode (.op2NNN nnn)) 0) := by
  simp only [exec, exec2NNN]
  rw [State.push_of_full _ h]

/-- Every instruction answers a next state: its own effect with the latch as it was, exactly when its
fault condition does not hold, or the fault and nothing else. -/
theorem exec_cases (i : Instr) (s : State) :
    (∃ t, exec i s = .next t ∧ t.fault = s.fault ∧ ∀ c a, ¬ RaiseCond i s c a) ∨
    (∃ c a, exec i s = .next (s.raise c (encode i) a) ∧ RaiseCond i s c a) := by
  cases i
  case op2NNN nnn =>
    by_cases h : s.sp.val < 16
    · refine .inl ⟨_, exec2NNN_of_lt nnn h, rfl, ?_⟩
      simp [RaiseCond, bytesTouched]
      omega
    · have h16 : s.sp.val = 16 := by omega
      exact .inr ⟨.stackOverflow, 0, exec2NNN_of_full nnn h16,
        .inr (.inl ⟨rfl, h16, ⟨nnn, rfl⟩, rfl⟩)⟩
  case op00EE =>
    by_cases h : 0 < s.sp.val
    · refine .inl ⟨_, exec00EE_of_pos h, rfl, ?_⟩
      simp [RaiseCond, bytesTouched]
      intro c a _ h0
      simp [h0] at h
    · have h0 : s.sp.val = 0 := by omega
      exact .inr ⟨.stackUnderflow, 0, exec00EE_of_empty h0, .inr (.inr ⟨rfl, h0, rfl, rfl⟩)⟩
  case opDXYN x y n => exact accessing_exec (i := .opDXYN x y n) rfl rfl (by simp) (by simp)
  case opFX33 x => exact accessing_exec (i := .opFX33 x) rfl rfl (by simp) (by simp)
  case opFX55 x => exact accessing_exec (i := .opFX55 x) rfl rfl (by simp) (by simp)
  case opFX65 x => exact accessing_exec (i := .opFX65 x) rfl rfl (by simp) (by simp)
  case opFX0A x =>
    left
    simp only [exec, execFX0A]
    cases s.selectedKey <;> exact ⟨_, rfl, rfl, by simp [RaiseCond, bytesTouched]⟩
  all_goals exact .inl ⟨_, rfl, rfl, by simp [RaiseCond, bytesTouched]⟩

/-- The step with a fault latched (R94). -/
theorem step_of_latched {s : State} {r : FaultRecord} (h : s.fault = some r) :
    step s = .next s := by
  unfold step
  rw [h]

/-- The step whose fetch or decode faults (R86, R90). -/
theorem step_of_fetch_error {s t : State} (h : s.fault = none) (hf : s.fetchInstr = .error t) :
    step s = .next t := by
  unfold step
  rw [h, hf]

/-- The step that runs an instruction (R85, R87). -/
theorem step_of_instr {s : State} {i : Instr} (h : s.fault = none) (hf : s.fetchInstr = .ok i) :
    step s = exec i s.advance := by
  unfold step
  rw [h, hf]

/-- What a step can do. -/
theorem step_cases (s : State) :
    (∃ r, s.fault = some r ∧ step s = .next s) ∨
    (s.fault = none ∧ 4096 ≤ s.pc.toNat + 1 ∧
      step s = .next (s.latchFault .memoryOutOfBounds 0 (max s.pc.toNat 4096))) ∨
    (∃ op e, s.fault = none ∧ s.fetch = .ok op ∧ decode op = .error e ∧
      step s = .next (s.latchFault .unknownOpcode op 0)) ∨
    (∃ op i t, s.fault = none ∧ s.pc.toNat + 1 < 4096 ∧ s.fetch = .ok op ∧ decode op = .ok i ∧
      s.fetchInstr = .ok i ∧ step s = .next t ∧ exec i s.advance = .next t ∧
      ((t.fault = none ∧ ∀ c a, ¬ RaiseCond i s c a) ∨
        ∃ c a, t = s.latchFault c (encode i) a ∧ RaiseCond i s c a)) := by
  cases hf : s.fault with
  | some r => exact .inl ⟨r, rfl, step_of_latched hf⟩
  | none =>
    right
    rcases s.fetchInstr_cases with ⟨h1, h2⟩ | ⟨op, e, -, h2, h3, h4⟩ | ⟨op, i, h1, h2, h3, h4⟩
    · exact .inl ⟨rfl, h1, step_of_fetch_error hf h2⟩
    · exact .inr (.inl ⟨op, e, rfl, h2, h3, step_of_fetch_error hf h4⟩)
    · right; right
      have hs := step_of_instr hf h4
      have hc : ∀ c a, RaiseCond i s.advance c a ↔ RaiseCond i s c a := fun _ _ => Iff.rfl
      rcases exec_cases i s.advance with ⟨t, ht, h5, h6⟩ | ⟨c, a, ht, h5⟩
      · refine ⟨op, i, t, rfl, h1, h2, h3, h4, hs.trans ht, ht, .inl ⟨?_, ?_⟩⟩
        · rw [h5]; exact hf
        · exact fun c a h => h6 c a ((hc c a).2 h)
      · refine ⟨op, i, _, rfl, h1, h2, h3, h4, hs.trans ht, ht, .inr ⟨c, a, ?_, h5⟩⟩
        exact State.raise_advance s c (encode i) a

end Sys2Proof.Machine
end

