-- ==== Sys2Proof/Tests/Slice0.lean ====
section
/-! SUPPORT. Tests of the decoder, the words' well-formedness, one step of each instruction and the
host's operations, expected results from the spec's vectors T1 to T171 and decode table (95); then a
witness for the hypotheses of every obligation that has any. -/

namespace Sys2Proof.Tests

open Sys2Proof.Machine

/-- A state after reset with these registers. -/
def withRegs (l : List (RegIdx × Byte)) : State :=
  l.foldl (fun s p => s.setReg p.1 p.2) State.reset

/-- A state with these bytes of memory from an address upward. -/
def withBytes (base : Nat) (l : List Byte) (s : State) : State :=
  { s with mem := s.mem.writeBytes s.params.font base l }

/-- The open parameters with SHIFT_USES_VY true. -/
def shiftsY : Config.Params := { defaultParams with shiftUsesVY := true }

/-- The machine after reset with another FONT. -/
def otherFont : State := State.resetWith { defaultParams with font := Vector.replicate 80 0x55 }

/-- What is seen of the state after one step, with this word where the step fetches. -/
def seen {α : Type} (s : State) (word : Nat) (f : State → α) : Option α :=
  match step (s.withFetchWord 16 word) with
  | .next t => some (f t)
  | _ => none

/-- The fault latched after one step, with this word where the step fetches. -/
def faultOf (s : State) (word : Nat) : Option FaultRecord := (seen s word State.fault).getD none

/-- The lit cells of some rows. -/
def litCells (s : State) (rows : List (Fin 32)) : List (Fin 64 × Fin 32) :=
  rows.flatMap fun y => (List.finRange 64).filterMap fun x =>
    if s.fb.cell x y then some (x, y) else none

/-- A state with one key pressed. -/
def withKey (k : KeyIdx) (s : State) : State := setKey k true s

/-- The state of T3 after its step: a fault is latched. -/
def faultedState : State :=
  { State.reset with fault := some ⟨.stackUnderflow, 0x0200, 0x00EE, 0⟩ }

/-! Decoding: words written out bit by bit from the formats of R66 and the rows of R70. -/

theorem test_decode_families_0_1_2 :
    decode 0b0000_0000_1110_0000 = .ok .op00E0 ∧ decode 0b0000_0000_1110_1110 = .ok .op00EE ∧
    decode 0b0001_0010_0011_0100 = .ok (.op1NNN 0x234) ∧
    decode 0b0010_1010_1011_1100 = .ok (.op2NNN 0xABC) := by decide

theorem test_decode_families_3_4_5 :
    decode 0b0011_0011_0100_0010 = .ok (.op3XNN 3 0x42) ∧
    decode 0b0100_0011_0100_0010 = .ok (.op4XNN 3 0x42) ∧
    decode 0b0101_0001_0010_0000 = .ok (.op5XY0 1 2) := by decide

theorem test_decode_families_6_7 :
    decode 0b0110_1010_0111_1111 = .ok (.op6XNN 10 0x7F) ∧
    decode 0b0111_1111_0000_0001 = .ok (.op7XNN 15 0x01) := by decide

theorem test_decode_family_8 :
    decode 0b1000_0001_0010_0000 = .ok (.op8XY0 1 2) ∧
    decode 0b1000_0001_0010_0001 = .ok (.op8XY1 1 2) ∧
    decode 0b1000_0001_0010_0010 = .ok (.op8XY2 1 2) ∧
    decode 0b1000_0001_0010_0011 = .ok (.op8XY3 1 2) ∧
    decode 0b1000_0001_0010_0100 = .ok (.op8XY4 1 2) ∧
    decode 0b1000_0001_0010_0101 = .ok (.op8XY5 1 2) ∧
    decode 0b1000_0001_0010_0110 = .ok (.op8XY6 1 2) ∧
    decode 0b1000_0001_0010_0111 = .ok (.op8XY7 1 2) ∧
    decode 0b1000_1010_1011_1110 = .ok (.op8XYE 10 11) := by decide

theorem test_decode_families_9_A_B_C :
    decode 0b1001_0001_0010_0000 = .ok (.op9XY0 1 2) ∧
    decode 0b1010_0010_1111_0000 = .ok (.opANNN 0x2F0) ∧
    decode 0b1011_0011_0000_0000 = .ok (.opBNNN 0x300) ∧
    decode 0b1100_0001_0011_1100 = .ok (.opCXNN 1 0x3C) := by decide

theorem test_decode_families_D_E :
    decode 0b1101_0101_1010_0111 = .ok (.opDXYN 5 10 7) ∧
    decode 0b1110_0010_1001_1110 = .ok (.opEX9E 2) ∧
    decode 0b1110_0010_1010_0001 = .ok (.opEXA1 2) := by decide

theorem test_decode_family_F :
    decode 0b1111_0011_0000_0111 = .ok (.opFX07 3) ∧
    decode 0b1111_0101_0000_1010 = .ok (.opFX0A 5) ∧
    decode 0b1111_0000_0001_0101 = .ok (.opFX15 0) ∧
    decode 0b1111_0001_0001_1000 = .ok (.opFX18 1) ∧
    decode 0b1111_0001_0001_1110 = .ok (.opFX1E 1) ∧
    decode 0b1111_0010_0010_1001 = .ok (.opFX29 2) ∧
    decode 0b1111_0000_0011_0011 = .ok (.opFX33 0) ∧
    decode 0b1111_1111_0101_0101 = .ok (.opFX55 15) ∧
    decode 0b1111_0001_0110_0101 = .ok (.opFX65 1) := by decide

/-- The first byte in memory is the high byte; one byte alone is no instruction. -/
theorem test_decodeBytes :
    decodeBytes [0x12, 0x34, 0x56] = .ok (.op1NNN 0x234, [0x56]) ∧
    decodeBytes [0x12] = .error .truncated ∧ decodeTableWord 16 0x1234 = some (.op1NNN 0x234) ∧
    decodeTableWord 16 0x0123 = none := by decide

/-! Well-formedness: one illegal word for each family of R71, which the check and the decoder refuse. -/

theorem test_illegal_family_0 : wordWellFormed 0x0123 = false ∧
    decode 0x0123 = .error (.unknownOpcode 0x0123) := by decide

theorem test_illegal_family_5 : wordWellFormed 0x5121 = false ∧
    decode 0x5121 = .error (.unknownOpcode 0x5121) := by decide

theorem test_illegal_family_8 : wordWellFormed 0x8128 = false ∧ wordWellFormed 0x812F = false ∧
    decode 0x8128 = .error (.unknownOpcode 0x8128) := by decide

theorem test_illegal_family_9 : wordWellFormed 0x912F = false ∧
    decode 0x912F = .error (.unknownOpcode 0x912F) := by decide

theorem test_illegal_family_E : wordWellFormed 0xE29F = false ∧
    decode 0xE2FF = .error (.unknownOpcode 0xE2FF) := by decide

theorem test_illegal_family_F : wordWellFormed 0xF000 = false ∧
    decode 0xF0FF = .error (.unknownOpcode 0xF0FF) := by decide

theorem test_wellFormed_word : wordWellFormed 0x812E = true := by decide

/-! One step of each instruction: the vectors of spec file 95. -/

/-- T1. -/
theorem test_00E0 : seen { State.reset with fb := State.reset.fb.toggle 5 3 } 0x00E0
    (fun t => (t.fb.cell 5 3, t.redraw, t.pc)) = some (false, true, 0x202) := by decide

/-- T2. -/
theorem test_00EE : seen { State.reset with sp := 1, stack := State.reset.stack.set 0 0x0206 } 0x00EE
    (fun t => (t.pc, t.sp, t.stack[0])) = some (0x206, 0, 0x0206) := by decide

/-- T3. -/
theorem test_00EE_empty :
    faultOf State.reset 0x00EE = some ⟨.stackUnderflow, 0x0200, 0x00EE, 0⟩ := by decide

/-- T4. -/
theorem test_1NNN : seen State.reset 0x1234 State.pc = some 0x234 := by decide

/-- T8. -/
theorem test_2NNN : seen { State.reset with pc := 0x204 } 0x220C
    (fun t => (t.stack[0], t.sp, t.pc)) = some (0x0206, 1, 0x20C) := by decide

/-- T10. -/
theorem test_2NNN_full : seen { State.reset with sp := 16 } 0x2300
    (fun t => (t.fault, t.sp, t.pc)) =
      some (some ⟨.stackOverflow, 0x0200, 0x2300, 0⟩, 16, 0x200) := by decide

/-- T20, T21. -/
theorem test_3XNN : seen (withRegs [(3, 0x42)]) 0x3342 State.pc = some 0x204 ∧
    seen (withRegs [(3, 0x42)]) 0x3343 State.pc = some 0x202 := by decide

/-- T32: the advance of a taken skip from 0xFFE. -/
theorem test_3XNN_at_the_end :
    seen { State.reset with pc := 0xFFE } 0x3000 State.pc = some 0x1002 := by decide

/-- T22, T23. -/
theorem test_4XNN : seen (withRegs [(3, 0x42)]) 0x4342 State.pc = some 0x202 ∧
    seen (withRegs [(3, 0x42)]) 0x4343 State.pc = some 0x204 := by decide

/-- T24, T25. -/
theorem test_5XY0 : seen (withRegs [(1, 7), (2, 7)]) 0x5120 State.pc = some 0x204 ∧
    seen (withRegs [(1, 7), (2, 8)]) 0x5120 State.pc = some 0x202 := by decide

/-- T41. -/
theorem test_6XNN : seen State.reset 0x6F07 (fun t => (t.reg 15, t.pc)) = some (0x07, 0x202) := by
  decide

/-- T42. -/
theorem test_7XNN : seen (withRegs [(1, 0xFF), (15, 0x5A)]) 0x7101
    (fun t => (t.reg 1, t.reg 15)) = some (0x00, 0x5A) := by decide

/-- T50. -/
theorem test_8XY0 : seen (withRegs [(2, 0x37)]) 0x8120 (fun t => (t.reg 1, t.reg 2)) =
    some (0x37, 0x37) := by decide

/-- T51. -/
theorem test_8XY1 : seen (withRegs [(1, 0xF0), (2, 0x0F), (15, 0x5A)]) 0x8121
    (fun t => (t.reg 1, t.reg 15)) = some (0xFF, 0x5A) := by decide

/-- T52. -/
theorem test_8XY2 : seen (withRegs [(1, 0xF0), (2, 0x3C)]) 0x8122 (fun t => t.reg 1) =
    some 0x30 := by decide

/-- T53. -/
theorem test_8XY3 : seen (withRegs [(1, 0xF0), (2, 0x3C)]) 0x8123 (fun t => t.reg 1) =
    some 0xCC := by decide

/-- T56. -/
theorem test_8XY4 : seen (withRegs [(0, 0x80), (1, 0x7F), (15, 1)]) 0x8014
    (fun t => (t.reg 0, t.reg 15)) = some (0xFF, 0) := by decide

/-- T59, T60: the flag register as destination and as source. -/
theorem test_8XY4_flag : seen (withRegs [(15, 0xFF), (1, 0x02)]) 0x8F14 (fun t => t.reg 15) =
      some 0x01 ∧
    seen (withRegs [(1, 0x10), (15, 0x01)]) 0x81F4 (fun t => (t.reg 1, t.reg 15)) =
      some (0x11, 0) := by decide

/-- T62. -/
theorem test_8XY5 : seen (withRegs [(0, 0x01), (1, 0x02)]) 0x8015
    (fun t => (t.reg 0, t.reg 15)) = some (0xFF, 0) := by decide

/-- T63, T66. -/
theorem test_8XY5_equal : seen (withRegs [(0, 0x05), (1, 0x05)]) 0x8015
      (fun t => (t.reg 0, t.reg 15)) = some (0, 1) ∧
    seen (withRegs [(15, 0x05), (1, 0x09)]) 0x8F15 (fun t => t.reg 15) = some 0 := by decide

/-- T70. -/
theorem test_8XY6 : seen (withRegs [(1, 0x05), (2, 0xF0)]) 0x8126
      (fun t => (t.reg 1, t.reg 15, t.reg 2)) = some (0x02, 1, 0xF0) ∧
    seen { withRegs [(1, 0x05), (2, 0xF0)] with params := shiftsY } 0x8126
      (fun t => (t.reg 1, t.reg 15, t.reg 2)) = some (0x78, 0, 0xF0) := by decide

/-- T72. -/
theorem test_8XY6_flag : seen (withRegs [(15, 0x02)]) 0x8F06 (fun t => t.reg 15) = some 0 := by
  decide

/-- T73, T74. -/
theorem test_8XY7 : seen (withRegs [(0, 0x02), (1, 0x0A)]) 0x8017
      (fun t => (t.reg 0, t.reg 15)) = some (0x08, 1) ∧
    seen (withRegs [(0, 0x02), (1, 0x01)]) 0x8017 (fun t => (t.reg 0, t.reg 15)) =
      some (0xFF, 0) := by decide

/-- T80. -/
theorem test_8XYE : seen (withRegs [(1, 0x81), (2, 0x40)]) 0x812E
      (fun t => (t.reg 1, t.reg 15)) = some (0x02, 1) ∧
    seen { withRegs [(1, 0x81), (2, 0x40)] with params := shiftsY } 0x812E
      (fun t => (t.reg 1, t.reg 15)) = some (0x80, 0) := by decide

/-- T79. -/
theorem test_8XYE_clears_the_flag : seen (withRegs [(0, 0x7F), (15, 1)]) 0x800E
    (fun t => (t.reg 0, t.reg 15)) = some (0xFE, 0) := by decide

/-- T28, T29. -/
theorem test_9XY0 : seen (withRegs [(1, 7), (2, 8)]) 0x9120 State.pc = some 0x204 ∧
    seen (withRegs [(1, 7), (2, 7)]) 0x9120 State.pc = some 0x202 := by decide

/-- T90. -/
theorem test_ANNN : seen { State.reset with i := 0xFFFF } 0xA2F0 (fun t => (t.i, t.pc)) =
    some (0x02F0, 0x202) := by decide

/-- T93. -/
theorem test_BNNN : seen (withRegs [(0, 0xFF)]) 0xBFFF State.pc = some 0x10FE := by decide

/-- T94. -/
theorem test_BNNN_offset : seen (withRegs [(0, 0x01), (3, 0x80)]) 0xB300 State.pc =
    some 0x301 := by decide

/-- T96: the mask 0 leaves no free bit, whatever the byte is. -/
theorem test_CXNN : (match exec (.opCXNN 1 0) (withRegs [(1, 0xFF)]) with
    | .next t => some (t.reg 1, t.draws)
    | _ => none) = some (0, 1) := by
  show some (Config.randomByte 0 &&& 0, 1) = some (0, 1)
  simp

/-- T100: a sprite row that wraps from column 63 to column 0. -/
theorem test_DXYN : seen (withBytes 0x300 [0xFF] { withRegs [(0, 60), (1, 0)] with i := 0x300 })
      0xD011 (fun t => (litCells t [0, 1], t.reg 15, t.redraw)) =
    some ([(0, 0), (1, 0), (2, 0), (3, 0), (60, 0), (61, 0), (62, 0), (63, 0)], 0, true) := by decide

/-- T105: one cell off, one on, a collision. -/
theorem test_DXYN_collision : seen (withBytes 0x300 [0xC0]
      { State.reset with i := 0x300, fb := State.reset.fb.toggle 1 0 }) 0xD001
      (fun t => (litCells t [0, 1], t.reg 15)) = some ([(0, 0)], 1) := by decide

/-- T109, T107. -/
theorem test_DXYN_bounds : seen { withRegs [(15, 7)] with i := 0xFFE } 0xD013
      (fun t => (t.fault, t.reg 15, t.redraw, t.pc)) =
      some (some ⟨.memoryOutOfBounds, 0x0200, 0xD013, 0x1000⟩, 7, false, 0x200) ∧
    seen { withRegs [(15, 1)] with i := 0xFFFF } 0xD010 (fun t => (t.fault, t.reg 15, t.redraw)) =
      some (none, 0, true) := by decide

/-- T112: the column is read from the old flag register. -/
theorem test_DXYN_reads_first : seen (withBytes 0x300 [0x80]
      { withRegs [(15, 5)] with i := 0x300 }) 0xDF01 (fun t => (t.fb.cell 5 0, t.reg 15)) =
    some (true, 0) := by decide

/-- T124, T122. -/
theorem test_EX9E : seen (withKey 5 (withRegs [(2, 0x15)])) 0xE29E State.pc = some 0x204 ∧
    seen (withRegs [(2, 5)]) 0xE29E State.pc = some 0x202 := by decide

/-- T121, T123. -/
theorem test_EXA1 : seen (withKey 5 (withRegs [(2, 5)])) 0xE2A1 State.pc = some 0x202 ∧
    seen (withRegs [(2, 5)]) 0xE2A1 State.pc = some 0x204 := by decide

/-- T130. -/
theorem test_FX07 : seen { State.reset with delayTimer := 0x3C } 0xF307
    (fun t => (t.reg 3, t.delayTimer)) = some (0x3C, 0x3C) := by decide

/-- T131: nothing changes, and the step reports `AwaitingInput`. -/
theorem test_FX0A_waits : step (State.reset.withFetchWord 16 0xF50A) =
      .next (State.reset.withFetchWord 16 0xF50A) ∧
    hostOp .step (State.reset.withFetchWord 16 0xF50A) =
      .next (State.reset.withFetchWord 16 0xF50A, .stepped .awaitingInput) := ⟨rfl, rfl⟩

/-- T133: two keys pressed, under the default choice and under another one. -/
theorem test_FX0A : seen (withKey 9 (withKey 7 State.reset)) 0xF50A (fun t => (t.reg 5, t.pc)) =
      some (0x07, 0x202) ∧
    seen (withKey 9 (withKey 7 { State.reset with params := ⟨defaultFont, false, [([7, 9], 9)]⟩ })) 0xF50A
      (fun t => (t.reg 5, t.pc)) = some (0x09, 0x202) := by decide

/-- T135. -/
theorem test_FX15 : seen (withRegs [(0, 0x3C)]) 0xF015 (fun t => (t.delayTimer, t.soundTimer)) =
    some (0x3C, 0) := by decide

/-- T136. -/
theorem test_FX18 : seen (withRegs [(1, 0x05)]) 0xF118 readSound = some (0x05, true) := by decide

/-- T138, T139. -/
theorem test_FX1E : seen { withRegs [(1, 0x01)] with i := 0x0FFF } 0xF11E
      (fun t => (t.i, t.reg 15)) = some (0x1000, 0) ∧
    seen { withRegs [(1, 0x01)] with i := 0xFFFF } 0xF11E State.i = some 0 := by decide

/-- T140, T142. -/
theorem test_FX29 : seen (withRegs [(2, 0x04)]) 0xF229 State.i = some 0x0064 ∧
    seen (withRegs [(0, 0x1A)]) 0xF029 State.i = some 0x0082 := by decide

/-- T143. -/
theorem test_FX33 : seen { withRegs [(0, 0xFE)] with i := 0x300 } 0xF033
    (fun t => (t.read 0x300, t.read 0x301, t.read 0x302)) =
      some (0x02, 0x05, 0x04) := by decide

/-- T146. -/
theorem test_FX33_bounds : seen { withRegs [(0, 0xFF)] with i := 0xFFE } 0xF033
    (fun t => (t.fault, t.read 0xFFE, t.read 0xFFF)) =
      some (some ⟨.memoryOutOfBounds, 0x0200, 0xF033, 0x1000⟩, 0, 0) := by decide

/-- T148, on four registers. -/
theorem test_FX55 : seen { withRegs [(0, 0xA0), (1, 0xA1), (2, 0xA2), (3, 0xA3), (4, 0xA4)] with
      i := 0xFFC } 0xF355 (fun t => ((List.range 4).map fun k => t.read (0xFFC + k), t.i)) =
    some ([0xA0, 0xA1, 0xA2, 0xA3], 0xFFC) := by decide

/-- T149, on the sixteen registers. -/
theorem test_FX55_bounds : seen { withRegs [(0, 0xA0)] with i := 0xFF1 } 0xFF55
    (fun t => (t.fault, t.read 0xFF1)) =
      some (some ⟨.memoryOutOfBounds, 0x0200, 0xFF55, 0x1000⟩, 0) := by decide

/-- T152. -/
theorem test_FX65 : seen (withBytes 0x300 [0x10, 0x11, 0x12] { State.reset with i := 0x300 }) 0xF165
    (fun t => (t.reg 0, t.reg 1, t.reg 2, t.i)) = some (0x10, 0x11, 0, 0x300) := by decide

/-- T153. -/
theorem test_FX65_bounds : seen { withRegs [(0, 7)] with i := 0xFFF } 0xF165
    (fun t => (t.fault, t.reg 0)) =
      some (some ⟨.memoryOutOfBounds, 0x0200, 0xF165, 0x1000⟩, 7) := by decide

/-! The step, the host's operations and the memory. -/

/-- T7: an odd `pc` is accepted. -/
theorem test_step_odd_pc : seen { State.reset with pc := 0x203 } 0x6A55
    (fun t => (t.reg 10, t.pc)) = some (0x55, 0x205) := by decide

/-- T170, T6: the fetch at 4095 faults with the address of its second byte. -/
theorem test_step_fetch_fault : faultOf { State.reset with pc := 0xFFF } 0x1200 =
    some ⟨.memoryOutOfBounds, 0x0FFF, 0x0000, 0x1000⟩ := by decide

/-- T171: the last legal fetch address. -/
theorem test_step_last_fetch :
    seen { State.reset with pc := 0xFFE } 0x1200 State.pc = some 0x200 := by decide

/-- T12: the machine after reset with nothing loaded. -/
theorem test_step_nothing_loaded : step State.reset =
    .next { State.reset with fault := some ⟨.unknownOpcode, 0x0200, 0x0000, 0⟩ } := rfl

/-- T160, T162: each timer by itself, a latched fault or not. -/
theorem test_tickTimers : (tickTimers { State.reset with delayTimer := 255 }).delayTimer = 254 ∧
    (tickTimers { State.reset with delayTimer := 255 }).soundTimer = 0 ∧
    (tickTimers { faultedState with delayTimer := 2 }).delayTimer = 1 := by decide

/-- T163. -/
theorem test_reset : (resetOp { faultedState with pc := 0x300 }).pc = 0x200 ∧
    (resetOp faultedState).fault = none ∧ (resetOp (withBytes 0x200 [1] State.reset)).mem = [] := by
  decide

/-- T165: a second load leaves the tail of the first. -/
theorem test_load : (fun s : State => (List.range 4).map fun k => s.read (0x200 + k))
    (load [0x12, 0x00] (load [0xAB, 0xAB, 0xAB, 0xAB] State.reset).1).1 =
      [0x12, 0x00, 0xAB, 0xAB] := by decide

/-- T166, T167. -/
theorem test_setKey_clearRedraw : (setKey 3 true State.reset).key[3] = true ∧
    (setKey 3 false (setKey 3 true State.reset)).key[3] = false ∧
    readRedraw { State.reset with redraw := true } = true ∧
    readRedraw (clearRedraw { State.reset with redraw := true }) = false := by decide

/-- T169. -/
theorem test_reset_memory : (List.range 6).map (fun k => State.reset.read (0x4F + k)) =
      [0x00, 0xF0, 0x90, 0x90, 0x90, 0xF0] ∧
    (List.range 6).map (fun k => State.reset.read (0x9B + k)) =
      [0xF0, 0x80, 0xF0, 0x80, 0x80, 0x00] ∧ State.reset.read 0x200 = 0 := by decide

/-- R25, R26: with another FONT, after reset and after the host's reset; a draw reads it. -/
theorem test_other_font : (List.range 2).map (fun k => otherFont.read (0x4F + k)) = [0x00, 0x55] ∧
    (List.range 2).map (fun k => (resetOp (withBytes 0x09F [1, 1] otherFont)).read (0x9F + k)) =
      [0x55, 0x00] ∧
    seen { otherFont with i := 0x050 } 0xD001 (fun t => litCells t [0, 1]) =
      some [(1, 0), (3, 0), (5, 0), (7, 0)] := by decide

/-- R211, R28: the cell `(x, y)` has index `y * 64 + x`. -/
theorem test_readFb : readFbCell { State.reset with fb := State.reset.fb.toggle 63 1 } 127 = true ∧
    readFbCell { State.reset with fb := State.reset.fb.toggle 63 1 } 126 = false ∧
    readFbCell { State.reset with fb := State.reset.fb.toggle 0 31 } 1984 = true ∧
    (readFb { State.reset with fb := State.reset.fb.toggle 63 1 }).cell 63 1 = true := by decide

/-- Writing the reset value removes the entry, and entries stay in rising order. -/
theorem test_memory_canonical : Memory.write [(0x300, 7)] defaultFont 0x300 0 = [] ∧
    Memory.write [(0x300, 7)] defaultFont 0x200 1 = [(0x200, 1), (0x300, 7)] ∧
    Memory.write [] defaultFont 0x050 0xF0 = [] ∧
    Memory.wf [(0x300, 7), (0x200, 1)] defaultFont = false ∧
    Memory.wf [(0x300, 0)] defaultFont = false ∧ Memory.wf [(0x1000, 1)] defaultFont = false := by decide

/-- The codes of R180. -/
theorem test_fault_codes : [Fault.memoryOutOfBounds, .stackOverflow, .stackUnderflow,
    .unknownOpcode].map Fault.code = [1, 2, 3, 4] := by decide

/-! Witnesses: values that meet the hypotheses of each obligation, clause by clause. -/

/-- `1200` at the last legal fetch address. -/
def lastJump : State := { State.reset with pc := 0xFFE }.withFetchWord 16 0x1200

theorem test_witness_StepRunsTheDecodedInstruction : lastJump.fault = none ∧
    lastJump.pc.toNat + 1 < 4096 ∧
    (0x1200 : Word).toNat = (lastJump.read lastJump.pc.toNat).toNat * 256 +
      (lastJump.read (lastJump.pc.toNat + 1)).toNat ∧
    decode 0x1200 = .ok (.op1NNN 0x200) := by decide

theorem test_witness_FetchSucceedsExactlyBelow4095 : lastJump.pc.toNat ≤ 4094 ∧
    (State.reset.fault = none ∧ ({ State.reset with pc := 0xFFF } : State).pc.toNat = 4095) ∧
    4096 ≤ ({ State.reset with pc := 0x1000 } : State).pc.toNat := by decide

theorem test_witness_UnknownWordLatchesItself : State.reset.fault = none ∧
    State.reset.fetch = .ok 0 ∧ decode 0 = .error (.unknownOpcode 0) := by decide

theorem test_witness_latched : faultedState.fault =
    some ⟨.stackUnderflow, 0x0200, 0x00EE, 0⟩ := by decide

/-- `ReturnPopsIntoPc`, `CallPushesTheNextAddress`: the stack empty, with one entry, with fifteen, full. -/
theorem test_witness_stack_counts : State.reset.sp.val = (0 : Fin 16).val ∧
    ({ State.reset with sp := 1 } : State).sp.val = (0 : Fin 16).val + 1 ∧
    ({ State.reset with sp := 15 } : State).sp.val = (15 : Fin 16).val ∧
    ({ State.reset with sp := 16 } : State).sp.val = (15 : Fin 16).val + 1 := by decide

theorem test_witness_KeySkipsTestTheLowNibbleKey :
    (5 : KeyIdx).val = ((withRegs [(2, 0x15)]).reg 2).toNat % 16 ∧
    (15 : KeyIdx).val = ((withRegs [(2, 0xFF)]).reg 2).toNat % 16 := by decide

theorem test_witness_ShiftsSetTheLostBit :
    (0x05 : Byte) = (if (withRegs [(1, 0x05), (2, 0xF0)]).params.shiftUsesVY = true
      then (withRegs [(1, 0x05), (2, 0xF0)]).reg 2 else (withRegs [(1, 0x05), (2, 0xF0)]).reg 1) ∧
    (0xF0 : Byte) = (if shiftsY.shiftUsesVY = true
      then (withRegs [(1, 0x05), (2, 0xF0)]).reg 2 else (withRegs [(1, 0x05), (2, 0xF0)]).reg 1) := by
  decide

/-- No row wherever `i` points; the last row at 4095; one row too many. -/
theorem test_witness_DrawInvertsExactlyTheSpriteCells :
    ((0 : Fin 16).val = 0 ∨ (0xFFFF : Word).toNat + (0 : Fin 16).val ≤ 4096) ∧
    (0xFFE : Word).toNat + (2 : Fin 16).val ≤ 4096 ∧
    (0 < (3 : Fin 16).val ∧ 4096 < (0xFFE : Word).toNat + (3 : Fin 16).val) := by decide

theorem test_witness_KeyWaitReportsAPressedKey :
    (∀ k : KeyIdx, State.reset.key[k.val] = false) ∧
    ((withKey 15 State.reset).key[(15 : KeyIdx).val] = true ∧
      (withKey 15 State.reset).params.keySelect = []) := by decide

/-- `DecimalDigitsAreStored`, `RegisterBlockIsStored`, `RegisterBlockIsLoaded`: the last byte at 4095,
and at 4096. -/
theorem test_witness_block_bounds : State.reset.mem.wf defaultFont = true ∧
    ((0xFFD : Word).toNat + 2 < 4096 ∧ 4096 ≤ (0xFFE : Word).toNat + 2) ∧
    ((0xFF0 : Word).toNat + (15 : RegIdx).val < 4096 ∧
      4096 ≤ (0xFF1 : Word).toNat + (15 : RegIdx).val) ∧
    ((0xFFF : Word).toNat + (0 : RegIdx).val < 4096 ∧
      4096 ≤ (0x1000 : Word).toNat + (0 : RegIdx).val) := by decide

/-- The state before a store of `v[0]` and `v[1]` at the top of memory, `pc` there too. -/
def beforeStore : State := { withRegs [(0, 0x12), (1, 0x34)] with i := 0xFFE, pc := 0xFFE }

/-- The state after it. -/
def afterStore : State := withBytes 0xFFE [0x12, 0x34] beforeStore

theorem test_witness_StoredBlockLoadsBack : beforeStore.mem.wf defaultFont = true ∧
    beforeStore.i.toNat + (1 : RegIdx).val < 4096 ∧
    exec (.opFX55 1) beforeStore = .next afterStore ∧
    ({ State.reset with mem := afterStore.mem, i := 0xFFE } : State).params = afterStore.params ∧
    ({ State.reset with mem := afterStore.mem, i := 0xFFE } : State).i = beforeStore.i :=
  ⟨by decide, by decide, rfl, rfl, rfl⟩

theorem test_witness_FetchSeesTheLastStore : beforeStore.mem.wf defaultFont = true ∧
    beforeStore.i.toNat + (1 : RegIdx).val < 4096 ∧ (1 : RegIdx).val = (0 : RegIdx).val + 1 ∧
    (1 : RegIdx) ≤ 1 ∧ exec (.opFX55 1) beforeStore = .next afterStore ∧
    afterStore.pc.toNat = beforeStore.i.toNat + (0 : RegIdx).val :=
  ⟨by decide, by decide, by decide, by decide, rfl, by decide⟩

theorem test_witness_ReturnUndoesCall : ({ State.reset with sp := 15 } : State).sp.val < 16 ∧
    exec (.op2NNN 0x300) { State.reset with sp := 15 } = .next { State.reset with
      sp := 16, stack := State.reset.stack.set 15 0x200, pc := 0x300 } := ⟨by decide, rfl⟩

/-- Each of the three reports occurs. -/
theorem test_witness_StepHasExactlyThreeOutcomes :
    stepReport (State.reset.withFetchWord 16 0xF50A) (State.reset.withFetchWord 16 0xF50A) =
      .awaitingInput ∧
    stepReport faultedState faultedState = .fault ⟨.stackUnderflow, 0x0200, 0x00EE, 0⟩ ∧
    stepReport lastJump { lastJump with pc := 0x200 } = .ok := by decide

theorem test_witness_FaultsArePrecise : State.reset.fault = none ∧
    State.reset.fetch = .ok 0 ∧
    step State.reset =
      .next { State.reset with fault := some ⟨.unknownOpcode, 0x0200, 0, 0⟩ } := ⟨rfl, by decide, rfl⟩

/-- Each cause is raised by some step: by the fetch, by an instruction that touches memory, and so on. -/
theorem test_witness_FaultsExactlyUnderTheirConditions :
    (faultOf { State.reset with pc := 0xFFF } 0).map FaultRecord.cause = some .memoryOutOfBounds ∧
    (faultOf { State.reset with i := 0xFFF } 0xF165).map FaultRecord.cause =
      some .memoryOutOfBounds ∧
    (faultOf { State.reset with sp := 16 } 0x2300).map FaultRecord.cause = some .stackOverflow ∧
    (faultOf State.reset 0x00EE).map FaultRecord.cause = some .stackUnderflow ∧
    (faultOf State.reset 0x8128).map FaultRecord.cause = some .unknownOpcode := by decide

/-- Each piece that `StepChangesOnlyWhatItsInstructionMay` speaks of changes in some step. -/
theorem test_witness_StepChangesOnlyWhatItsInstructionMay :
    (seen (withRegs [(0, 1)]) 0xF015 State.delayTimer ≠ some 0 ∧
      seen (withRegs [(0, 1)]) 0xF018 State.soundTimer ≠ some 0) ∧
    seen State.reset 0x00E0 State.redraw ≠ some false ∧
    seen { withRegs [(0, 1)] with i := 0x300 } 0xF055 (fun t => t.read 0x300) ≠ some 0 ∧
    seen (withBytes 0x300 [0x80] { State.reset with i := 0x300 }) 0xD001
      (fun t => t.fb.cell 0 0) ≠ some false ∧
    seen State.reset 0x2300 State.sp ≠ some 0 ∧ seen State.reset 0xA001 State.i ≠ some 0 := by decide

/-- A register changes, and a flag-writing instruction completes. -/
theorem test_witness_StepWritesOnlyTheTabledRegisters :
    seen State.reset 0x6101 (fun t => t.reg 1) ≠ some 0 ∧
    seen (withRegs [(15, 9)]) 0x8015 (fun t => (t.fault, t.reg 15)) = some (none, 1) := by decide

/-- An instruction that completes, and one that faults. -/
theorem test_witness_PcAfterEveryStep :
    seen State.reset 0x1234 State.fault = some none ∧
    seen State.reset 0x00EE State.fault ≠ some none := by decide

theorem test_witness_StepKeepsTheInvariant :
    faultedState.Inv ∧ step faultedState = .next faultedState := by
  refine ⟨⟨by decide, ?_⟩, rfl⟩
  rintro r ⟨⟩
  exact ⟨rfl, by decide, by decide⟩

theorem test_witness_HostOperationsKeepTheInvariant :
    hostOp (.load [1]) faultedState = .next (withBytes 0x200 [1] faultedState, .loaded .ok) := rfl

/-- Both bounds are reached: `pc` at 0x10FE, return addresses 0x002 and 0x1000 in a full stack. -/
theorem test_witness_PcBoundIsKept : State.PcBound { State.reset with
    pc := 0x10FE, sp := 16, stack := (Vector.replicate 16 (0x002 : Word)).set 15 0x1000 } := by
  unfold State.PcBound
  decide

theorem test_witness_EncodeOfDecode : decode 0x8ABE = .ok (.op8XYE 10 11) := by decide

theorem test_witness_DecodeFollowsTheOpcodeMap : (Instr.op8XYE 0 0).row ∈ opcodeMap ∧
    (Instr.op8XYE 0 0).row.covers 0x8ABE = true := by decide

theorem test_witness_LoadCopiesAllOrNothing : State.reset.mem.wf defaultFont = true ∧
    (List.replicate 3584 (0xAB : Byte)).length ≤ 3584 ∧
    3584 < (List.replicate 3585 (0xAB : Byte)).length := by
  simp only [List.length_replicate]
  decide

theorem test_witness_ResetValues : Piece.pc ≠ .draws ∧ Piece.params ≠ .draws ∧
    (0x04F < 0x050 ∨ 0x0A0 ≤ 0x04F) ∧ (0x0A0 < 0x050 ∨ 0x0A0 ≤ 0x0A0) := by decide

/-- The last cell's index. -/
theorem test_witness_HostSetsKeysAndReadsOutputs :
    (2047 : Fin 2048).val = (31 : Fin 32).val * 64 + (63 : Fin 64).val := by decide

theorem test_witness_OnlyResetClearsTheLatch :
    hostOp .tickTimers faultedState = .next (tickTimers faultedState, .done) ∧
    HostOp.tickTimers ≠ .reset ∧
    hostOp .reset faultedState = .next (resetOp faultedState, .done) := ⟨rfl, by decide, rfl⟩

theorem test_witness_OnlyKeyInstructionsReadKeys :
    ∀ x, Instr.op00E0 ≠ .opEX9E x ∧ Instr.op00E0 ≠ .opEXA1 x ∧ Instr.op00E0 ≠ .opFX0A x := by decide

theorem test_witness_NoInstructionReadsSoundOrRedraw :
    (∀ x, Instr.op00EE ≠ .opFX18 x) ∧ Instr.op00EE ≠ .op00E0 ∧
    (∀ x y n, Instr.op00EE ≠ .opDXYN x y n) ∧
    ((0 : Fin 16).val = 0 ∨ State.reset.i.toNat + (0 : Fin 16).val ≤ 4096) := by
  refine ⟨?_, ?_, ?_, .inl rfl⟩ <;> simp

/-- The stack holds one entry, and a cell above it differs. -/
theorem test_witness_DeadStackCellsAreUnobservable : SameButDeadStack
    { State.reset with sp := 1 } { State.reset with sp := 1, stack := State.reset.stack.set 1 7 } := by
  refine ⟨rfl, ?_⟩
  decide

theorem test_witness_SpinningAndWaitingChangeNothing :
    (State.reset.withFetchWord 16 0x1200).spinning = true ∧
    (State.reset.withFetchWord 16 0xF50A).waiting = true := by decide

theorem test_witness_EveryKeySelectionHasATable :
    (∀ keys : List KeyIdx, keys ≠ [] → keys.headD 0 ∈ keys) ∧
    (withKey 3 State.reset).pressedKeys ≠ [] := by
  refine ⟨?_, by decide⟩
  intro keys h
  cases keys with
  | nil => exact absurd rfl h
  | cons k ks => simp

end Sys2Proof.Tests
end

section
/-! PROOFS for spec file 10 (state): the return from a subroutine, and the values after reset. -/

namespace Sys2Proof.Machine

/-- Raising a fault inside `exec` is the state that the statements call `faulting` (R184). -/
theorem State.raise_eq_faulting (s : State) (c : Fault) (op : Word) (a : Nat) :
    s.raise c op a = faulting s c op a := rfl

/-- The frame of an update of `pc` and `sp`: no other piece reads either field. -/
theorem onlyChanged_pc_sp (s : State) (sp : Fin 17) (pc : Word) :
    OnlyChanged (fun p => p = .pc ∨ p = .sp) s { s with sp := sp, pc := pc } := by
  intro p hp
  cases p
  case pc => exact absurd (.inl rfl) hp
  case sp => exact absurd (.inr rfl) hp
  all_goals rfl

/-- `00EE` with `k + 1` entries held goes to the newest, in cell `k` (R18, R101). -/
theorem exec00EE_of_succ {s : State} {k : Fin 16} (h : s.sp.val = k.val + 1) :
    exec .op00EE s = .next { s with sp := k.castSucc, pc := s.stack[k.val] } := by
  have hk : s.sp.val - 1 = k.val := by omega
  rw [exec00EE_of_pos (by omega)]
  simp only [hk]
  rfl

/-- Settles O6: the newest entry is popped into `pc`, and with none held the underflow is latched. -/
theorem returnPopsIntoPc : Obligations.ReturnPopsIntoPc := by
  refine ⟨rfl, fun s => ⟨fun k hk => ?_, fun h0 => ?_⟩⟩
  · exact ⟨_, exec00EE_of_succ hk, rfl, rfl, onlyChanged_pc_sp s _ _⟩
  · rw [exec00EE_of_empty h0, State.raise_eq_faulting]
    rfl

/-- After reset every piece but the count of draws is that of a machine newly built with the same
parameters (R206, R220). -/
theorem resetOp_same (s : State) {p : Piece} (hp : p ≠ .draws) :
    p.same (State.resetWith s.params) (resetOp s) := by
  cases p
  case draws => exact absurd rfl hp
  all_goals rfl

/-- Every register is 0 after reset (R220). -/
@[simp] theorem reg_resetOp (s : State) (k : RegIdx) : (resetOp s).reg k = 0 :=
  Vector.getElem_replicate k.isLt

/-- Memory after reset reads as FONT in its block and 0 elsewhere (R25, R220). -/
@[simp] theorem read_resetOp (s : State) (a : Nat) :
    (resetOp s).read a = resetByte s.params.font a := rfl

/-- Every stack cell is 0 after reset (R220). -/
theorem stack_resetOp (s : State) (k : Fin 16) : (resetOp s).stack[k.val] = 0 :=
  Vector.getElem_replicate k.isLt

/-- No cell of the framebuffer is lit after reset (R220). -/
@[simp] theorem cell_resetOp (s : State) (x : Fin 64) (y : Fin 32) :
    (resetOp s).fb.cell x y = false :=
  Framebuffer.cell_clear x y

/-- Every key is released after reset (R220). -/
theorem key_resetOp (s : State) (k : KeyIdx) : (resetOp s).key[k.val] = false :=
  Vector.getElem_replicate k.isLt

/-- Settles O44: item by item, each array of the state by its own lemma. -/
theorem resetValues : Obligations.ResetValues := by
  intro s
  refine ⟨resetOp s, rfl, fun _ hp => resetOp_same s hp, rfl, reg_resetOp s, rfl, rfl, rfl,
    stack_resetOp s, rfl, rfl, fun k => ?font, fun a ha => ?outside, cell_resetOp s,
    key_resetOp s, rfl, rfl⟩
  case font => rw [read_resetOp, resetByte_font]
  case outside => rw [read_resetOp, resetByte_of_outside ha]

end Sys2Proof.Machine
end

section
/-! PROOFS for spec file 30 (encoding): the decoder and the opcode map of R70 say the same. One
direction puts a word together again from its fields (R66); the other reads off the masked word the
fields that the dispatch of R68 looks at. -/

namespace Sys2Proof.Machine

theorem formatA_of_fields {w : Word} {n3 : BitVec 4} (h3 : (fieldN3 w).toNat = n3.toNat) :
    formatA n3 (fieldNNN w) = w := by
  rw [← BitVec.eq_of_toNat_eq h3]
  exact BitVec.extractLsb'_append_extractLsb'

theorem fieldN3_append_fieldX (w : Word) :
    fieldN3 w ++ nibble (fieldX w) = w.extractLsb' 8 8 :=
  BitVec.extractLsb'_append_extractLsb'_eq_extractLsb' rfl

theorem formatS_of_fields {w : Word} {n3 : BitVec 4} {f : Byte}
    (h3 : (fieldN3 w).toNat = n3.toNat) (hf : fieldNN w = f) : formatS n3 (fieldX w) f = w := by
  rw [formatS, ← BitVec.eq_of_toNat_eq h3, ← hf, fieldN3_append_fieldX]
  exact BitVec.extractLsb'_append_extractLsb'

theorem formatI_of_fields {w : Word} {n3 : BitVec 4} (h3 : (fieldN3 w).toNat = n3.toNat) :
    formatI n3 (fieldX w) (fieldNN w) = w :=
  formatS_of_fields h3 rfl

theorem formatR_of_fields {w : Word} {n3 f : BitVec 4} (h3 : (fieldN3 w).toNat = n3.toNat)
    (hf : (fieldN w).toNat = f.toNat) : formatR n3 (fieldX w) (fieldY w) f = w := by
  have hy : w.extractLsb' 8 8 ++ nibble (fieldY w) = w.extractLsb' 4 12 :=
    BitVec.extractLsb'_append_extractLsb'_eq_extractLsb' rfl
  rw [formatR, ← BitVec.eq_of_toNat_eq h3, ← BitVec.eq_of_toNat_eq hf,
    fieldN3_append_fieldX, hy]
  exact BitVec.extractLsb'_append_extractLsb'

theorem formatD_of_fields {w : Word} (h3 : (fieldN3 w).toNat = 0xD) :
    formatD (fieldX w) (fieldY w) (fieldN w).toFin = w :=
  formatR_of_fields (n3 := 0xD) h3 rfl

theorem encode_of_decodeFamily0 {w : Word} {i : Instr} (h : decodeFamily0 w = .ok i) :
    encode i = w := by
  unfold decodeFamily0 at h
  split_ifs at h with hw hw
  all_goals
    cases h
    exact hw.symm

theorem encode_of_decodeFamily8 {w : Word} {i : Instr} (h3 : (fieldN3 w).toNat = 0x8)
    (h : decodeFamily8 w = .ok i) : encode i = w := by
  unfold decodeFamily8 at h
  split at h
  case h_10 => cases h
  all_goals
    rename_i hn
    cases h
    exact formatR_of_fields h3 hn

theorem encode_of_decodeFamilyE {w : Word} {i : Instr} (h3 : (fieldN3 w).toNat = 0xE)
    (h : decodeFamilyE w = .ok i) : encode i = w := by
  unfold decodeFamilyE at h
  split_ifs at h with hf hf
  all_goals
    cases h
    exact formatS_of_fields h3 hf

theorem encode_of_decodeFamilyF {w : Word} {i : Instr} (h3 : (fieldN3 w).toNat = 0xF)
    (h : decodeFamilyF w = .ok i) : encode i = w := by
  unfold decodeFamilyF at h
  dsimp only at h
  split_ifs at h with hf hf hf hf hf hf hf hf hf
  all_goals
    cases h
    exact formatS_of_fields h3 hf

/-- A word that decodes is the word of the instruction it decodes to (R66, R70). -/
theorem encode_of_decode {w : Word} {i : Instr} (h : decode w = .ok i) : encode i = w := by
  unfold decode at h
  split at h
  case h_1 => exact encode_of_decodeFamily0 h
  case h_9 h3 => exact encode_of_decodeFamily8 h3 h
  case h_15 h3 => exact encode_of_decodeFamilyE h3 h
  case h_16 h3 => exact encode_of_decodeFamilyF h3 h
  case h_2 h3 | h_3 h3 | h_11 h3 | h_12 h3 =>
    cases h
    exact formatA_of_fields h3
  case h_4 h3 | h_5 h3 | h_7 h3 | h_8 h3 | h_13 h3 =>
    cases h
    exact formatI_of_fields h3
  case h_6 h3 | h_10 h3 =>
    split_ifs at h with hn
    cases h
    exact formatR_of_fields h3 (congrArg BitVec.toNat hn)
  case h_14 h3 =>
    cases h
    exact formatD_of_fields h3
  case h_17 => cases h

/-- Every instruction's row stands in the opcode map and covers its word (R70). -/
theorem rowOfMap : ∀ i : Instr, Laws.RowOfMap.Statement i
  | .op00E0 => Laws.RowOfMap.op00E0
  | .op00EE => Laws.RowOfMap.op00EE
  | .op1NNN nnn => Laws.RowOfMap.op1NNN nnn
  | .op2NNN nnn => Laws.RowOfMap.op2NNN nnn
  | .op3XNN x nn => Laws.RowOfMap.op3XNN x nn
  | .op4XNN x nn => Laws.RowOfMap.op4XNN x nn
  | .op5XY0 x y => Laws.RowOfMap.op5XY0 x y
  | .op6XNN x nn => Laws.RowOfMap.op6XNN x nn
  | .op7XNN x nn => Laws.RowOfMap.op7XNN x nn
  | .op8XY0 x y => Laws.RowOfMap.op8XY0 x y
  | .op8XY1 x y => Laws.RowOfMap.op8XY1 x y
  | .op8XY2 x y => Laws.RowOfMap.op8XY2 x y
  | .op8XY3 x y => Laws.RowOfMap.op8XY3 x y
  | .op8XY4 x y => Laws.RowOfMap.op8XY4 x y
  | .op8XY5 x y => Laws.RowOfMap.op8XY5 x y
  | .op8XY6 x y => Laws.RowOfMap.op8XY6 x y
  | .op8XY7 x y => Laws.RowOfMap.op8XY7 x y
  | .op8XYE x y => Laws.RowOfMap.op8XYE x y
  | .op9XY0 x y => Laws.RowOfMap.op9XY0 x y
  | .opANNN nnn => Laws.RowOfMap.opANNN nnn
  | .opBNNN nnn => Laws.RowOfMap.opBNNN nnn
  | .opCXNN x nn => Laws.RowOfMap.opCXNN x nn
  | .opDXYN x y n => Laws.RowOfMap.opDXYN x y n
  | .opEX9E x => Laws.RowOfMap.opEX9E x
  | .opEXA1 x => Laws.RowOfMap.opEXA1 x
  | .opFX07 x => Laws.RowOfMap.opFX07 x
  | .opFX0A x => Laws.RowOfMap.opFX0A x
  | .opFX15 x => Laws.RowOfMap.opFX15 x
  | .opFX18 x => Laws.RowOfMap.opFX18 x
  | .opFX1E x => Laws.RowOfMap.opFX1E x
  | .opFX29 x => Laws.RowOfMap.opFX29 x
  | .opFX33 x => Laws.RowOfMap.opFX33 x
  | .opFX55 x => Laws.RowOfMap.opFX55 x
  | .opFX65 x => Laws.RowOfMap.opFX65 x

/-- Every row of the map is the row of an instruction (R70). -/
theorem exists_row_of_mem_opcodeMap : ∀ r ∈ opcodeMap, ∃ i : Instr, i.row = r := by
  simp [opcodeMap]

/-- Where a row's mask is all ones, a word that matches the row has the row's bits (R70). -/
theorem extractLsb'_of_covers {m : String} {bits mask w : Word} {start len : Nat}
    (h : (MapRow.mk m bits mask).covers w = true)
    (hm : mask.extractLsb' start len = BitVec.allOnes len) :
    w.extractLsb' start len = bits.extractLsb' start len := by
  have hw : w &&& mask = bits := beq_iff_eq.1 h
  rw [← hw, BitVec.extractLsb'_and, hm, BitVec.and_allOnes]

/-- A word that matches an instruction's row decodes to an instruction of that row: the row fixes
every bit that the dispatch of R68 looks at, the family nibble first. -/
theorem decode_of_covers {i : Instr} {w : Word} (h : i.row.covers w = true) :
    ∃ j, decode w = .ok j ∧ j.row = i.row := by
  cases i
  all_goals
    have h3 : fieldN3 w = _ := extractLsb'_of_covers h rfl
    rw [decode, h3]
  case op00E0 | op00EE =>
    have hw : w.extractLsb' 0 16 = _ := extractLsb'_of_covers h rfl
    rw [BitVec.extractLsb'_eq_self] at hw
    subst hw
    exact ⟨_, rfl, rfl⟩
  case op1NNN | op2NNN | op3XNN | op4XNN | op6XNN | op7XNN | opANNN | opBNNN | opCXNN | opDXYN =>
    exact ⟨_, rfl, rfl⟩
  case op5XY0 | op9XY0 =>
    have hn : fieldN w = _ := extractLsb'_of_covers h rfl
    exact ⟨_, if_pos hn, rfl⟩
  case op8XY0 | op8XY1 | op8XY2 | op8XY3 | op8XY4 | op8XY5 | op8XY6 | op8XY7 | op8XYE =>
    have hn : fieldN w = _ := extractLsb'_of_covers h rfl
    simp [decodeFamily8, hn, Instr.row]
  case opEX9E | opEXA1 | opFX07 | opFX0A | opFX15 | opFX18 | opFX1E | opFX29 | opFX33 | opFX55 |
      opFX65 =>
    have hnn : fieldNN w = _ := extractLsb'_of_covers h rfl
    simp [decodeFamilyE, decodeFamilyF, hnn, Instr.row]

/-- A word that matches a row of the map decodes to an instruction of that row (R70). -/
theorem decode_of_mem_opcodeMap {w : Word} {r : MapRow} (hr : r ∈ opcodeMap)
    (h : r.covers w = true) : ∃ i, decode w = .ok i ∧ i.row = r := by
  obtain ⟨i, rfl⟩ := exists_row_of_mem_opcodeMap r hr
  exact decode_of_covers h

/-- A word that decodes matches the row of its instruction, which stands in the map (R70). -/
theorem wordWellFormed_of_decode {w : Word} {i : Instr} (h : decode w = .ok i) :
    wordWellFormed w = true := by
  obtain ⟨hmem, hcovers⟩ := rowOfMap i
  rw [encode_of_decode h] at hcovers
  exact List.any_eq_true.2 ⟨i.row, hmem, hcovers⟩

/-- Settles O39: a matching row gives the decoded instruction, so two matching rows are the one row
of that instruction; and an instruction's own row covers its word. -/
theorem decodeFollowsTheOpcodeMap : Obligations.DecodeFollowsTheOpcodeMap := by
  refine ⟨fun w => ⟨fun hw => ?_, fun ⟨i, hi⟩ => wordWellFormed_of_decode hi⟩,
    fun w r hr h => decode_of_mem_opcodeMap hr h, fun w r r' hr hr' h h' => ?_⟩
  · obtain ⟨r, hr, h⟩ := List.any_eq_true.1 hw
    obtain ⟨i, hi, -⟩ := decode_of_mem_opcodeMap hr h
    exact ⟨i, hi⟩
  · obtain ⟨i, hi, rfl⟩ := decode_of_mem_opcodeMap hr h
    obtain ⟨j, hj, rfl⟩ := decode_of_mem_opcodeMap hr' h'
    obtain rfl : i = j := Except.ok.inj (hi.symm.trans hj)
    rfl

end Sys2Proof.Machine
end

section
/-! PROOFS for spec file 40 (the step cycle): the fetch, the decode's fault, the latched fault, and
the three reports of a step. -/

namespace Sys2Proof.Machine

/-- A fetched word that decodes is the instruction the step runs (R86, R88). -/
theorem State.fetchInstr_of_decode {s : State} {op : Word} {i : Instr} (hf : s.fetch = .ok op)
    (hd : decode op = .ok i) : s.fetchInstr = .ok i := by
  simp only [State.fetchInstr, hf, hd]

/-- A fetched word that is no instruction latches itself (R90). -/
theorem State.fetchInstr_of_decode_error {s : State} {op : Word} {e : DecodeError}
    (hf : s.fetch = .ok op) (hd : decode op = .error e) :
    s.fetchInstr = .error (s.latchFault .unknownOpcode op 0) := by
  simp only [State.fetchInstr, hf, hd]

/-- A fetch that fails latches the lowest address that is out of range, and no word (R86). -/
theorem State.fetchInstr_of_out {s : State} (h : 4096 ≤ s.pc.toNat + 1) :
    s.fetchInstr = .error (s.latchFault .memoryOutOfBounds 0 (max s.pc.toNat 4096)) := by
  simp only [State.fetchInstr, State.fetch_of_out h]

/-- The word whose value is R41's sum of the two bytes at `pc` is the word fetched. -/
theorem State.fetch_eq_of_toNat {s : State} {op : Word} (h : s.pc.toNat + 1 < 4096)
    (hop : op.toNat = (s.read s.pc.toNat).toNat * 256 + (s.read (s.pc.toNat + 1)).toNat) :
    s.fetch = .ok op := by
  rw [State.fetch_of_fits h, BitVec.eq_of_toNat_eq (hop.trans (toNat_wordOfBytes _ _).symm)]

/-- Settles O1: the word of the two bytes is the one fetched, and 2 more than a `pc` below 4095 is
below 65536. -/
theorem stepRunsTheDecodedInstruction : Obligations.StepRunsTheDecodedInstruction := by
  intro s op i hfault hpc hop hd
  have hf := State.fetchInstr_of_decode (State.fetch_eq_of_toNat hpc hop) hd
  exact ⟨step_of_instr hfault hf, by bv_omega⟩

/-- Settles O2: the lowest address out of range is 4096 when `pc` is 4095, and `pc` above. -/
theorem fetchSucceedsExactlyBelow4095 : Obligations.FetchSucceedsExactlyBelow4095 := by
  refine fun s => ⟨fun hpc => ?fits, fun hfault hpc => ?last, fun hfault hpc => ?beyond⟩
  case fits => exact ⟨_, State.fetch_of_fits (by omega), toNat_wordOfBytes _ _⟩
  case last =>
    have hmax : max s.pc.toNat 4096 = s.pc.toNat + 1 := by omega
    rw [step_of_fetch_error hfault (State.fetchInstr_of_out (by omega)), hmax]
    rfl
  case beyond =>
    rw [step_of_fetch_error hfault (State.fetchInstr_of_out (by omega)), Nat.max_eq_left hpc]
    rfl

/-- Settles O3: the decode's fault is latched at `pc`, with the raw word. -/
theorem unknownWordLatchesItself : Obligations.UnknownWordLatchesItself := by
  intro s op e hfault hf hd
  exact step_of_fetch_error hfault (State.fetchInstr_of_decode_error hf hd)

/-- The host's `step` answers the step's next state with its report (R92). -/
theorem hostOp_step {s t : State} (h : step s = .next t) :
    hostOp .step s = .next (t, .stepped (stepReport s t)) := by
  simp only [hostOp, h]

/-- A step reports `Fault` exactly with the record latched after it (R92, R184). -/
theorem stepReport_eq_fault {s t : State} {r : FaultRecord} :
    stepReport s t = .fault r ↔ t.fault = some r := by
  unfold stepReport
  cases t.fault with
  | some r' => simp
  | none => cases s.waiting <;> simp

/-- A step reports `AwaitingInput` exactly when the machine was waiting and no fault is latched
(R92). -/
theorem stepReport_eq_awaitingInput {s t : State} :
    stepReport s t = .awaitingInput ↔ t.fault = none ∧ s.waiting = true := by
  unfold stepReport
  cases t.fault with
  | some r => simp
  | none => cases s.waiting <;> simp

/-- A step reports `Ok` exactly when no fault is latched and the machine was not waiting (R92). -/
theorem stepReport_eq_ok {s t : State} :
    stepReport s t = .ok ↔ t.fault = none ∧ s.waiting = false := by
  unfold stepReport
  cases t.fault with
  | some r => simp
  | none => cases s.waiting <;> simp

/-- The machine waits exactly at an `FX0A` with no key pressed (R231). -/
theorem State.waiting_iff {s : State} :
    s.waiting = true ↔ s.pressedKeys = [] ∧ ∃ x, s.fetchInstr = .ok (.opFX0A x) := by
  unfold State.waiting
  split
  case h_1 x hx => simp [hx]
  case h_2 hne => simpa using fun _ x hx => hne x hx

/-- `FX0A` with no key pressed takes `pc` back to itself (R161). -/
theorem execFX0A_of_no_key {s : State} (x : RegIdx) (h : s.pressedKeys = []) :
    exec (.opFX0A x) s = .next s.retreat := by
  have hsel : s.selectedKey = none := selectKey_eq_none.2 h
  simp only [exec, execFX0A, hsel]

/-- A step of a waiting machine changes nothing (R92, R161). -/
theorem step_of_waiting {s : State} (h : s.waiting = true) : step s = .next s := by
  obtain ⟨hkeys, x, hx⟩ := State.waiting_iff.1 h
  cases hfault : s.fault with
  | some r => exact step_of_latched hfault
  | none =>
    have hadv : s.advance.pressedKeys = [] := hkeys
    rw [step_of_instr hfault hx, execFX0A_of_no_key x hadv, State.retreat_advance]

/-- Settles O4: the state stays, so the record reported is the one latched before. -/
theorem latchedFaultHaltsTheStep : Obligations.LatchedFaultHaltsTheStep := by
  intro s r h
  have hs := step_of_latched h
  exact ⟨hs, stepReport_eq_fault.2 h ▸ hostOp_step hs⟩

/-- A fault raised with the latch empty is the state with a record latched, which replaces none
(R184). -/
theorem latchFault_latches {s : State} (h : s.fault = none) (c : Fault) (op : Word) (a : Nat) :
    ∃ r, s.latchFault c op a = { s with fault := some r } ∧ ∀ r', s.fault = some r' → r' = r :=
  ⟨_, rfl, fun _ hr' => by cases h.symm.trans hr'⟩

/-- A step answers a next state: no fault is latched before or after, or the latch alone is changed
and a record that it held is kept (R92, R94, R184). -/
theorem step_unlatched_or_latches (s : State) : ∃ t, step s = .next t ∧
    ((s.fault = none ∧ t.fault = none) ∨
      ∃ r, t = { s with fault := some r } ∧ ∀ r', s.fault = some r' → r' = r) := by
  rcases step_cases s with ⟨r, hr, hs⟩ | ⟨hfault, -, hs⟩ | ⟨op, e, hfault, -, -, hs⟩ |
    ⟨op, i, t, hfault, -, -, -, -, hs, -, ⟨ht, -⟩ | ⟨c, a, rfl, -⟩⟩
  · refine ⟨s, hs, .inr ⟨r, by rw [← hr], ?_⟩⟩
    simp [hr]
  · exact ⟨_, hs, .inr (latchFault_latches hfault _ _ _)⟩
  · exact ⟨_, hs, .inr (latchFault_latches hfault _ _ _)⟩
  · exact ⟨t, hs, .inl ⟨hfault, ht⟩⟩
  · exact ⟨_, hs, .inr (latchFault_latches hfault _ _ _)⟩

/-- Settles O27: a waiting machine's step changes nothing, so with the latch empty it reports
`AwaitingInput`; every other report is read off the latch after the step. -/
theorem stepHasExactlyThreeOutcomes : Obligations.StepHasExactlyThreeOutcomes := by
  intro s
  obtain ⟨t, hs, ht⟩ := step_unlatched_or_latches s
  have stays (hw : s.waiting = true) : t = s := by
    injection hs.symm.trans (step_of_waiting hw)
  refine ⟨t, stepReport s t, hs, hostOp_step hs, ?waits, fun h => ?same, fun r h => ?fault,
    fun h => (stepReport_eq_ok.1 h).1⟩
  case waits =>
    rw [stepReport_eq_awaitingInput, ← State.waiting_iff]
    constructor
    · rintro ⟨hnone, hw⟩
      exact ⟨stays hw ▸ hnone, hw⟩
    · rintro ⟨hnone, hw⟩
      exact ⟨(stays hw).symm ▸ hnone, hw⟩
  case same => exact stays (stepReport_eq_awaitingInput.1 h).2
  case fault =>
    have hr := stepReport_eq_fault.1 h
    rcases ht with ⟨-, hnone⟩ | ⟨r', rfl, hkept⟩
    · cases hnone.symm.trans hr
    · cases hr
      exact ⟨rfl, hkept⟩

end Sys2Proof.Machine
end

section
/-! PROOFS for spec file 41 (families 0, 1, 2: clear, jump, call), and the jump with offset of spec
file 45, which shares the jumps' frame. -/

namespace Sys2Proof.Machine

/-- A word of format A by its number: the family nibble, then `NNN` (R66). -/
theorem ofNat_eq_formatA (n3 : BitVec 4) (nnn : BitVec 12) :
    BitVec.ofNat 16 (n3.toNat * 4096 + nnn.toNat) = formatA n3 nnn :=
  eq_ofNat_of_toNat (toNat_formatA n3 nnn)

theorem decode_op1NNN (nnn : BitVec 12) : decode (formatA 0x1 nnn) = .ok (.op1NNN nnn) := by
  simp [decode]

theorem decode_op2NNN (nnn : BitVec 12) : decode (formatA 0x2 nnn) = .ok (.op2NNN nnn) := by
  simp [decode]

theorem decode_opBNNN (nnn : BitVec 12) : decode (formatA 0xB nnn) = .ok (.opBNNN nnn) := by
  simp [decode]

@[simp] theorem toNat_zextNNN (nnn : BitVec 12) : (zextNNN nnn).toNat = nnn.toNat :=
  BitVec.toNat_setWidth_of_le (by decide)

/-- The frame of an update of `pc`: no other piece reads the field. -/
theorem onlyChanged_pc (s : State) (pc : Word) : OnlyChanged (· = .pc) s { s with pc := pc } := by
  intro p hp
  cases p
  case pc => exact absurd rfl hp
  all_goals rfl

/-- The target of `BNNN` is at most 0xFFF + 0xFF, so the sum of 16 bits does not wrap (R138). -/
theorem toNat_zextNNN_add_zextByte (nnn : BitVec 12) (b : Byte) :
    (zextNNN nnn + zextByte b).toNat = nnn.toNat + b.toNat := by
  have hb : (zextByte b).toNat = b.toNat := BitVec.toNat_setWidth_of_le (by decide)
  rw [BitVec.toNat_add, toNat_zextNNN, hb]
  omega

/-- Settles O7: both targets are sums below 65536, and `pc` is the only field updated. -/
theorem jumpsWritePcOnly : Obligations.JumpsWritePcOnly := by
  intro nnn s
  refine ⟨?_, ?_, ⟨_, rfl, toNat_zextNNN nnn, onlyChanged_pc s _⟩,
    ⟨_, rfl, toNat_zextNNN_add_zextByte nnn (s.reg 0), onlyChanged_pc s _⟩⟩
  · exact ofNat_eq_formatA 0x1 nnn ▸ decode_op1NNN nnn
  · exact ofNat_eq_formatA 0xB nnn ▸ decode_opBNNN nnn

/-- `2NNN` with `k` entries held, `k` below 16, pushes into cell `k` (R17, R103). -/
theorem exec2NNN_of_eq {s : State} {k : Fin 16} (nnn : BitVec 12) (h : s.sp.val = k.val) :
    exec (.op2NNN nnn) s = .next { s with
      stack := s.stack.set k.val s.pc, sp := k.succ, pc := zextNNN nnn } := by
  rw [exec2NNN_of_lt nnn (by omega)]
  simp only [h]
  rfl

/-- The frame of a push into cell `k` and an update of `pc`: every other cell keeps its value. -/
theorem onlyChanged_push (s : State) (k : Fin 16) (e pc : Word) (sp : Fin 17) :
    OnlyChanged (fun p => p = .pc ∨ p = .sp ∨ p = .stackCell k) s
      { s with stack := s.stack.set k.val e, sp := sp, pc := pc } := by
  intro p hp
  cases p
  case pc => exact absurd (.inl rfl) hp
  case sp => exact absurd (.inr (.inl rfl)) hp
  case stackCell j =>
    have hjk : k.val ≠ j.val := fun h =>
      hp (.inr (.inr (congrArg Piece.stackCell (Fin.ext h.symm))))
    exact Vector.getElem_set_ne k.isLt j.isLt hjk
  all_goals rfl

/-- Settles O8: with room the push writes the cell at `sp`, and with none the overflow is latched. -/
theorem callPushesTheNextAddress : Obligations.CallPushesTheNextAddress := by
  intro nnn s
  have hword : BitVec.ofNat 16 (0x2000 + nnn.toNat) = encode (.op2NNN nnn) :=
    ofNat_eq_formatA 0x2 nnn
  rw [hword]
  refine ⟨decode_op2NNN nnn, fun k hk => ?room, fun hfull => ?full⟩
  case room =>
    exact ⟨_, exec2NNN_of_eq nnn hk, Vector.getElem_set_self k.isLt, rfl, toNat_zextNNN nnn,
      onlyChanged_push s k _ _ _⟩
  case full => rw [exec2NNN_of_full nnn hfull, State.raise_eq_faulting]

/-- The frame of an update of the framebuffer and the redraw signal: no other piece reads either. -/
theorem onlyChanged_fb_redraw (s : State) (fb : Framebuffer) (redraw : Bool) :
    OnlyChanged (fun p => (∃ x y, p = .cell x y) ∨ p = .redraw) s
      { s with fb := fb, redraw := redraw } := by
  intro p hp
  cases p
  case cell x y => exact absurd (.inl ⟨x, y, rfl⟩) hp
  case redraw => exact absurd (.inr rfl) hp
  all_goals rfl

/-- Settles O5: the framebuffer after `00E0` is the cleared one, in which no cell is lit. -/
theorem clearLeavesNoCellLit : Obligations.ClearLeavesNoCellLit :=
  ⟨rfl, fun s => ⟨_, rfl, Framebuffer.cell_clear, rfl, onlyChanged_fb_redraw s _ _⟩⟩

end Sys2Proof.Machine
end

section
/-! PROOFS for spec file 42 (families 3, 4, 5: skips), and the skip of spec file 45: one lemma for
the words, one for the effect that every skip shares. -/

namespace Sys2Proof.Machine

/-- Decoding undoes encoding (R66, R68): the dispatch reads the fields that the format was made of. -/
theorem decode_encode (i : Instr) : decode (encode i) = .ok i := by
  cases i
  case op00E0 | op00EE => rfl
  case op1NNN | op2NNN | op3XNN | op4XNN | op5XY0 | op6XNN | op7XNN | op9XY0 | opANNN | opBNNN |
      opCXNN =>
    simp [encode, decode]
  case opDXYN => simp [encode, decode, formatD_eq]
  case op8XY0 | op8XY1 | op8XY2 | op8XY3 | op8XY4 | op8XY5 | op8XY6 | op8XY7 | op8XYE =>
    simp [encode, decode, decodeFamily8]
  case opEX9E | opEXA1 => simp [encode, decode, decodeFamilyE]
  case opFX07 | opFX0A | opFX15 | opFX18 | opFX1E | opFX29 | opFX33 | opFX55 | opFX65 =>
    simp [encode, decode, decodeFamilyF]

/-- The instruction's word, given by its number, decodes to the instruction. -/
theorem decode_ofNat_of_toNat_encode {i : Instr} {n : Nat} (h : (encode i).toNat = n) :
    decode (BitVec.ofNat 16 n) = .ok i := by
  rw [eq_ofNat_of_toNat h, decode_encode]

/-- An instruction that is a `skipIf` of a test which decides `c` skips when `c` holds; the frame is
that of an update of `pc`. -/
theorem skipsWhen_of_exec_skipIf {i : Instr} {s : State} {test : Bool} {c : Prop}
    (hexec : exec i s = .next (s.skipIf test)) (htest : test = true ↔ c) : SkipsWhen i s c := by
  refine ⟨_, hexec, fun hc => ?taken, fun hc => ?notTaken, onlyChanged_pc s _⟩
  case taken => rw [State.skipIf_pc, if_pos (htest.2 hc)]
  case notTaken => rw [State.skipIf_pc, if_neg (mt htest.1 hc)]

/-- Settles O9: each of the four is a `skipIf` of the comparison that its rule names. -/
theorem registerSkipsTestAndSkip : Obligations.RegisterSkipsTestAndSkip := by
  intro x y nn s
  refine ⟨?word3, ?word4, ?word5, ?word9, ?skip3, ?skip4, ?skip5, ?skip9⟩
  case word3 => exact decode_ofNat_of_toNat_encode (toNat_formatI 0x3 x nn)
  case word4 => exact decode_ofNat_of_toNat_encode (toNat_formatI 0x4 x nn)
  case word5 => exact decode_ofNat_of_toNat_encode (toNat_formatR 0x5 x y 0x0)
  case word9 => exact decode_ofNat_of_toNat_encode (toNat_formatR 0x9 x y 0x0)
  case skip3 => exact skipsWhen_of_exec_skipIf rfl beq_iff_eq
  case skip4 => exact skipsWhen_of_exec_skipIf rfl bne_iff_ne
  case skip5 => exact skipsWhen_of_exec_skipIf rfl beq_iff_eq
  case skip9 => exact skipsWhen_of_exec_skipIf rfl bne_iff_ne

end Sys2Proof.Machine
end

section
/-! PROOFS for spec file 43 (families 6, 7: immediate): one lemma for the effect of an instruction
that writes one register, one for the sum modulo 256. -/

namespace Sys2Proof.Machine

/-- The frame of a write to `v[x]`: every other register keeps its value, and no other piece reads
the register file. -/
theorem onlyChanged_setReg (s : State) (x : RegIdx) (b : Byte) :
    OnlyChanged (· = .reg x) s (s.setReg x b) := by
  intro p hp
  cases p
  case reg k =>
    have hxk : x ≠ k := fun h => hp (congrArg Piece.reg h.symm)
    exact State.reg_setReg_of_ne s b hxk
  all_goals rfl

/-- An instruction that completes by a write to `v[x]` writes that register and nothing else. -/
theorem writesReg_of_exec_setReg {i : Instr} {s : State} {x : RegIdx} {b : Byte}
    (hexec : exec i s = .next (s.setReg x b)) : WritesReg i s x b :=
  ⟨_, hexec, State.reg_setReg_self s x b, onlyChanged_setReg s x b⟩

/-- The sum of two bytes is that of their values modulo 256 (R116). -/
theorem ofNat_toNat_add_mod (a b : Byte) :
    BitVec.ofNat 8 ((a.toNat + b.toNat) % 256) = a + b := by
  rw [← BitVec.toNat_add, BitVec.ofNat_toNat, BitVec.setWidth_eq]

/-- Settles O11: each of the two is a write to `v[x]`, of `nn` or of the sum modulo 256. -/
theorem immediatesWriteOneRegister : Obligations.ImmediatesWriteOneRegister := by
  intro x nn s
  refine ⟨?word6, ?word7, ?load, ?add⟩
  case word6 => exact decode_ofNat_of_toNat_encode (toNat_formatI 0x6 x nn)
  case word7 => exact decode_ofNat_of_toNat_encode (toNat_formatI 0x7 x nn)
  case load => exact writesReg_of_exec_setReg rfl
  case add =>
    rw [ofNat_toNat_add_mod]
    exact writesReg_of_exec_setReg rfl

end Sys2Proof.Machine
end

section
/-! PROOFS for spec file 44 (family 8): one lemma for the words, one for the effect of an
instruction that writes a result and then the flag, one for each
computation of a result with its flag. -/

namespace Sys2Proof.Machine

/-- The value of a word of family 8, with the function digit beside the family's (R66, R120). -/
theorem toNat_formatR_family8 (x y : RegIdx) (f : BitVec 4) :
    (formatR 0x8 x y f).toNat = 0x8000 + f.toNat + x.val * 256 + y.val * 16 := by
  have h8 : (0x8 : BitVec 4).toNat = 8 := rfl
  rw [toNat_formatR, h8]
  omega

/-- Settles O12: each of the four is a write to `v[x]`, so no flag is written. -/
theorem logicWritesOneRegister : Obligations.LogicWritesOneRegister := by
  intro x y s
  refine ⟨?word0, ?word1, ?word2, ?word3, ?assign, ?or, ?and, ?xor⟩
  case word0 => exact decode_ofNat_of_toNat_encode (toNat_formatR_family8 x y 0x0)
  case word1 => exact decode_ofNat_of_toNat_encode (toNat_formatR_family8 x y 0x1)
  case word2 => exact decode_ofNat_of_toNat_encode (toNat_formatR_family8 x y 0x2)
  case word3 => exact decode_ofNat_of_toNat_encode (toNat_formatR_family8 x y 0x3)
  case assign | or | and | xor => exact writesReg_of_exec_setReg rfl

/-- The frame of a result and its flag: every register but `v[x]` and `v[15]` keeps its value, and
no other piece reads the register file. -/
theorem onlyChanged_setResult (s : State) (x : RegIdx) (p : Byte × Byte) :
    OnlyChanged (fun q => q = .reg x ∨ q = .reg 15) s (s.setResult x p) := by
  intro q hq
  cases q
  case reg k =>
    have hkx : k ≠ x := fun h => hq (.inl (congrArg Piece.reg h))
    have hk15 : k ≠ 15 := fun h => hq (.inr (congrArg Piece.reg h))
    change (s.setResult x p).reg k = s.reg k
    rw [State.reg_setResult, if_neg hk15, if_neg hkx]
  all_goals rfl

/-- An instruction that completes by writing a result and then its flag leaves both, the flag also
when the destination is `v[15]`, and changes nothing else (R120). -/
theorem writesResultAndFlag_of_exec_setResult {i : Instr} {s : State} {x : RegIdx}
    {p : Byte × Byte} {result flag : Byte} (hexec : exec i s = .next (s.setResult x p))
    (hp : p = (result, flag)) : WritesResultAndFlag i s x result flag := by
  subst hp
  refine ⟨_, hexec, ?flag, fun hx => ?result, onlyChanged_setResult s x _⟩
  case flag => rw [State.reg_setResult, if_pos rfl]
  case result => rw [State.reg_setResult, if_neg hx, if_pos rfl]

/-- The flag of a condition is 1 exactly when it holds (R13). -/
theorem flagByte_decide (c : Prop) [Decidable c] : flagByte (decide c) = if c then 1 else 0 := by
  simp only [flagByte, decide_eq_true_eq]

/-- Bit `k` of a byte as a flag is the `k`-th binary digit of its value. -/
theorem flagByte_getLsbD (b : Byte) (k : Nat) :
    flagByte (b.getLsbD k) = BitVec.ofNat 8 (b.toNat / 2 ^ k % 2) := by
  have hflag (c : Bool) : flagByte c = BitVec.ofNat 8 c.toNat := by cases c <;> rfl
  rw [hflag, ← BitVec.testBit_toNat, Nat.toNat_testBit]

/-- The sum and its carry out, by the values of the operands (R125). -/
theorem addCarry_eq (a b : Byte) :
    addCarry a b = (BitVec.ofNat 8 ((a.toNat + b.toNat) % 256),
      if 255 < a.toNat + b.toNat then 1 else 0) := by
  have hsum : BitVec.ofNat 8 (a.toNat + b.toNat) =
      BitVec.ofNat 8 ((a.toNat + b.toNat) % 256) := BitVec.eq_of_toNat_eq (Nat.mod_mod _ 256).symm
  exact Prod.ext hsum (flagByte_decide _)

/-- The difference and its missing borrow, by the values of the operands (R126, R128). -/
theorem subNoBorrow_eq (a b : Byte) :
    subNoBorrow a b = (BitVec.ofNat 8 ((a.toNat + 256 - b.toNat) % 256),
      if b.toNat ≤ a.toNat then 1 else 0) := by
  have hdiff : a - b = BitVec.ofNat 8 ((a.toNat + 256 - b.toNat) % 256) := by bv_omega
  exact Prod.ext hdiff (flagByte_decide _)

/-- Half the operand and its lowest bit (R127). -/
theorem shiftRight_eq (src : Byte) :
    shiftRight src = (BitVec.ofNat 8 (src.toNat / 2), BitVec.ofNat 8 (src.toNat % 2)) := by
  have hhalf : src >>> 1 = BitVec.ofNat 8 (src.toNat / 2) := by bv_omega
  have hbit : flagByte (src.getLsbD 0) = BitVec.ofNat 8 (src.toNat % 2) := by
    rw [flagByte_getLsbD, Nat.pow_zero, Nat.div_one]
  exact Prod.ext hhalf hbit

/-- Twice the operand modulo 256 and its highest bit, which is its value divided by 128 (R129). -/
theorem shiftLeft_eq (src : Byte) :
    shiftLeft src = (BitVec.ofNat 8 (src.toNat * 2 % 256), BitVec.ofNat 8 (src.toNat / 128)) := by
  have htwice : src <<< 1 = BitVec.ofNat 8 (src.toNat * 2 % 256) := by bv_omega
  have hbit : flagByte (src.getLsbD 7) = BitVec.ofNat 8 (src.toNat / 128) := by
    have hdigit : src.toNat / 2 ^ 7 % 2 = src.toNat / 128 := by omega
    rw [flagByte_getLsbD, hdigit]
  exact Prod.ext htwice hbit

/-- Settles O13: the sum and the carry are of the operands read before either write. -/
theorem addSetsCarryOut : Obligations.AddSetsCarryOut := by
  intro x y s
  refine ⟨?word, ?add⟩
  case word => exact decode_ofNat_of_toNat_encode (toNat_formatR_family8 x y 0x4)
  case add => exact writesResultAndFlag_of_exec_setResult rfl (addCarry_eq _ _)

/-- Settles O14: the two are one subtraction, with the operands exchanged. -/
theorem subtractionsSetNoBorrow : Obligations.SubtractionsSetNoBorrow := by
  intro x y s
  refine ⟨?word5, ?word7, ?sub, ?subn⟩
  case word5 => exact decode_ofNat_of_toNat_encode (toNat_formatR_family8 x y 0x5)
  case word7 => exact decode_ofNat_of_toNat_encode (toNat_formatR_family8 x y 0x7)
  case sub | subn => exact writesResultAndFlag_of_exec_setResult rfl (subNoBorrow_eq _ _)

/-- Settles O15: the operand that SHIFT_USES_VY chooses is the model's `shiftSource`. -/
theorem shiftsSetTheLostBit : Obligations.ShiftsSetTheLostBit := by
  intro x y s src hsrc
  have hsource : src = s.shiftSource x y := hsrc
  subst hsource
  refine ⟨?word6, ?wordE, ?right, ?left⟩
  case word6 => exact decode_ofNat_of_toNat_encode (toNat_formatR_family8 x y 0x6)
  case wordE => exact decode_ofNat_of_toNat_encode (toNat_formatR_family8 x y 0xE)
  case right => exact writesResultAndFlag_of_exec_setResult rfl (shiftRight_eq _)
  case left => exact writesResultAndFlag_of_exec_setResult rfl (shiftLeft_eq _)

end Sys2Proof.Machine
end

section
/-! PROOFS for spec file 45 (families 9, A, B, C): the instructions that write `i`, with `FX1E` and
`FX29` of spec file 48, which share the frame; one lemma for the words of family F, one for each
address. -/

namespace Sys2Proof.Machine

/-- The value of a word of family F, with the selector byte beside the family's digit (R66, R68). -/
theorem toNat_formatS_familyF (x : RegIdx) (f : Byte) :
    (formatS 0xF x f).toNat = 0xF000 + f.toNat + x.val * 256 := by
  have hF : (0xF : BitVec 4).toNat = 15 := rfl
  rw [toNat_formatS, hF]
  omega

@[simp] theorem toNat_zextByte (b : Byte) : (zextByte b).toNat = b.toNat :=
  BitVec.toNat_setWidth_of_le (by decide)

/-- The low nibble is the last hexadecimal digit of the value (R157, R165). -/
@[simp] theorem val_lowNibble (b : Byte) : (lowNibble b).val = b.toNat % 16 :=
  BitVec.extractLsb'_toNat 0 4 b

/-- The sum of an address and a register value wraps at 16 bits (R164). -/
theorem toNat_add_zextByte (a : Word) (b : Byte) :
    (a + zextByte b).toNat = (a.toNat + b.toNat) % 65536 := by
  rw [BitVec.toNat_add, toNat_zextByte]

/-- A glyph address is at most 0x050 + 5 * 15, so its 16 bits hold it (R165). -/
theorem toNat_glyphAddress (b : Byte) : (glyphAddress b).toNat = 0x050 + 5 * (b.toNat % 16) := by
  rw [glyphAddress, val_lowNibble, BitVec.toNat_ofNat, Config.fontBase]
  omega

/-- The frame of an update of `i`: no other piece reads the field. -/
theorem onlyChanged_i (s : State) (i : Word) : OnlyChanged (· = .i) s { s with i := i } := by
  intro p hp
  cases p
  case i => exact absurd rfl hp
  all_goals rfl

/-- Settles O16: `i` is the only field that each of the three updates, to the address that its rule
names. -/
theorem indexWritesChangeOnlyI : Obligations.IndexWritesChangeOnlyI := by
  intro x nnn s
  refine ⟨?wordA, ?word1E, ?word29, ?load, ?add, ?glyph⟩
  case wordA => exact decode_ofNat_of_toNat_encode (toNat_formatA 0xA nnn)
  case word1E => exact decode_ofNat_of_toNat_encode (toNat_formatS_familyF x 0x1E)
  case word29 => exact decode_ofNat_of_toNat_encode (toNat_formatS_familyF x 0x29)
  case load => exact ⟨_, rfl, toNat_zextNNN nnn, onlyChanged_i s _⟩
  case add => exact ⟨_, rfl, toNat_add_zextByte s.i (s.reg x), onlyChanged_i s _⟩
  case glyph => exact ⟨_, rfl, toNat_glyphAddress (s.reg x), onlyChanged_i s _⟩

end Sys2Proof.Machine
end

section
/-! PROOFS for spec file 47 (family E: key skips): one lemma for the words, one for the key that a
register selects; the effect is that of every skip (spec file 42). -/

namespace Sys2Proof.Machine

/-- The value of a word of format S, with the two fixed fields before the register's (R66, R68). -/
theorem toNat_formatS_fixed_add_reg (n3 : BitVec 4) (x : RegIdx) (f : Byte) :
    (formatS n3 x f).toNat = n3.toNat * 4096 + f.toNat + x.val * 256 :=
  (toNat_formatS n3 x f).trans (Nat.add_right_comm _ _ _)

/-- The low nibble is the only index below 16 that the value is congruent to modulo 16 (R157). -/
theorem lowNibble_eq_of_val_eq {b : Byte} {k : KeyIdx} (hk : k.val = b.toNat % 16) :
    lowNibble b = k :=
  Fin.ext ((val_lowNibble b).trans hk.symm)

/-- Settles O10: each of the two is a `skipIf` of the level of the key that the low nibble selects,
`EXA1` of the opposite level. -/
theorem keySkipsTestTheLowNibbleKey : Obligations.KeySkipsTestTheLowNibbleKey := by
  intro x s
  refine ⟨?word9E, ?wordA1, fun k hk => ?skips⟩
  case word9E => exact decode_ofNat_of_toNat_encode (toNat_formatS_fixed_add_reg 0xE x 0x9E)
  case wordA1 => exact decode_ofNat_of_toNat_encode (toNat_formatS_fixed_add_reg 0xE x 0xA1)
  case skips =>
    have hkey : s.keyDown (lowNibble (s.reg x)) = s.key[k.val] :=
      congrArg s.keyDown (lowNibble_eq_of_val_eq hk)
    refine ⟨?pressed, ?released⟩
    case pressed => exact skipsWhen_of_exec_skipIf rfl (by rw [hkey])
    case released => exact skipsWhen_of_exec_skipIf rfl (by rw [hkey, Bool.not_eq_true'])

end Sys2Proof.Machine
end

section
/-! PROOFS for spec file 48 (family F: timers, decimal digits, register block): one lemma for the
fault that the three memory instructions share, one for the frame of a stored block, one for each
loop. -/

namespace Sys2Proof.Machine

/-- The frame of an update of the delay timer: no other piece reads the field. -/
theorem onlyChanged_delayTimer (s : State) (b : Byte) :
    OnlyChanged (· = .delayTimer) s { s with delayTimer := b } := by
  intro p hp
  cases p
  case delayTimer => exact absurd rfl hp
  all_goals rfl

/-- The frame of an update of the sound timer: no other piece reads the field. -/
theorem onlyChanged_soundTimer (s : State) (b : Byte) :
    OnlyChanged (· = .soundTimer) s { s with soundTimer := b } := by
  intro p hp
  cases p
  case soundTimer => exact absurd rfl hp
  all_goals rfl

/-- Settles O19: `FX07` is a write to `v[x]`, the other two are updates of one timer. -/
theorem timerInstructionsMoveOneByte : Obligations.TimerInstructionsMoveOneByte := by
  intro x s
  refine ⟨?word07, ?word15, ?word18, ?readDelay, ?writeDelay, ?writeSound⟩
  case word07 => exact decode_ofNat_of_toNat_encode (toNat_formatS_familyF x 0x07)
  case word15 => exact decode_ofNat_of_toNat_encode (toNat_formatS_familyF x 0x15)
  case word18 => exact decode_ofNat_of_toNat_encode (toNat_formatS_familyF x 0x18)
  case readDelay => exact writesReg_of_exec_setReg rfl
  case writeDelay => exact ⟨_, rfl, rfl, onlyChanged_delayTimer s _⟩
  case writeSound => exact ⟨_, rfl, rfl, onlyChanged_soundTimer s _⟩

/-- A frame may be widened. -/
theorem OnlyChanged.mono {P Q : Piece → Prop} {s t : State} (h : OnlyChanged P s t)
    (hPQ : ∀ p, P p → Q p) : OnlyChanged Q s t :=
  fun p hp => h p (mt (hPQ p) hp)

/-- An access of `count` bytes that ends above 4095 latches the fault, the instruction's word given
by its number, and does nothing else (R181, R184). -/
theorem exec_of_access_out {i : Instr} {s done : State} {count word : Nat}
    (hexec : exec i s = s.accessing (encode i) count done) (hword : (encode i).toNat = word)
    (h0 : count ≠ 0) (hout : 4096 < s.i.toNat + count) :
    exec i s = .next (faulting s .memoryOutOfBounds (BitVec.ofNat 16 word)
      (max s.i.toNat 4096)) := by
  rw [hexec, State.accessing_of_out _ _ h0 hout, State.raise_eq_faulting, eq_ofNat_of_toNat hword]

section Block

variable {font : Config.Font} {m : Memory} {bs : List Byte} {base : Nat}

/-- The `k`th byte of a stored block stands at the `k`th address (R207). -/
theorem Memory.read_writeBytes_getElem {k : Nat} (hwf : m.wf font = true)
    (hfit : base + bs.length ≤ 4096) (hk : k < bs.length) :
    (m.writeBytes font base bs).read font (base + k) = bs[k] := by
  rw [(Memory.read_writeBytes bs base (base + k) hwf hfit).2, if_pos (by omega),
    Nat.add_sub_cancel_left, List.getD_eq_getElem _ _ hk]

/-- An address that is none of the block's reads as before (R207). -/
theorem Memory.read_writeBytes_of_ne {a : Nat} (hwf : m.wf font = true)
    (hfit : base + bs.length ≤ 4096) (ha : ∀ k, k < bs.length → a ≠ base + k) :
    (m.writeBytes font base bs).read font a = m.read font a := by
  have hnot : ¬ (base ≤ a ∧ a < base + bs.length) := fun ⟨hle, hlt⟩ =>
    ha (a - base) (by omega) (by omega)
  rw [(Memory.read_writeBytes bs base a hwf hfit).2, if_neg hnot]

/-- A block stored with one byte more at its end. -/
theorem Memory.writeBytes_concat (b : Byte) : ∀ (bs : List Byte) (m : Memory) (base : Nat),
    m.writeBytes font base (bs ++ [b]) =
      (m.writeBytes font base bs).write font (base + bs.length) b
  | [], _, _ => rfl
  | c :: bs, m, base => by
    have hlen : base + (c :: bs).length = base + 1 + bs.length := by
      rw [List.length_cons]
      omega
    rw [hlen]
    exact Memory.writeBytes_concat b bs (m.write font base c) (base + 1)

/-- The store loop of R167, one byte a round, stores the block of its bytes. -/
theorem Memory.forEach_write_eq_writeBytes (f : Nat → Byte) : ∀ n : Nat,
    forEach n (fun k m => Memory.write m font (base + k) (f k)) m =
      m.writeBytes font base ((List.range n).map f)
  | 0 => rfl
  | n + 1 => by
    rw [forEach_succ, Memory.forEach_write_eq_writeBytes f n, List.range_succ, List.map_append,
      List.map_singleton, Memory.writeBytes_concat, List.length_map, List.length_range]

end Block

/-- The frame of a block of bytes stored at `i`: every other byte reads as before, and no other
piece reads memory. -/
theorem onlyChanged_writeBytes {s : State} {bs : List Byte} (hwf : s.mem.wf s.params.font = true)
    (hfit : s.i.toNat + bs.length ≤ 4096) :
    OnlyChanged (fun p => ∃ k, k < bs.length ∧ p = .byte (s.i.toNat + k)) s
      { s with mem := s.mem.writeBytes s.params.font s.i.toNat bs } := by
  intro p hp
  cases p
  case byte a =>
    exact Memory.read_writeBytes_of_ne hwf hfit fun k hk ha =>
      hp ⟨k, hk, congrArg Piece.byte ha⟩
  all_goals rfl

/-- A hundreds digit is at most 2 (R166). -/
theorem toNat_hundreds (b : Byte) : (hundreds b).toNat = b.toNat / 100 :=
  Nat.mod_eq_of_lt (by omega)

theorem toNat_tens (b : Byte) : (tens b).toNat = b.toNat / 10 % 10 :=
  Nat.mod_eq_of_lt (by omega)

theorem toNat_ones (b : Byte) : (ones b).toNat = b.toNat % 10 :=
  Nat.mod_eq_of_lt (by omega)

/-- The bytes that `FX33` stores, in the order of their addresses (R166). -/
def digits (b : Byte) : List Byte := [hundreds b, tens b, ones b]

/-- `FX33` with room for three bytes stores the digits of `v[x]` at `i` (R166). -/
theorem execFX33_of_fits (x : RegIdx) {s : State} (hfit : s.i.toNat + 3 ≤ 4096) :
    exec (.opFX33 x) s = .next { s with
      mem := s.mem.writeBytes s.params.font s.i.toNat (digits (s.reg x)) } :=
  State.accessing_of_fits _ _ hfit

/-- Settles O21: the block stored is that of the three digits. -/
theorem decimalDigitsAreStored : Obligations.DecimalDigitsAreStored := by
  intro x s hwf
  refine ⟨?word, fun hin => ?stored, fun hout => ?fault⟩
  case word => exact decode_ofNat_of_toNat_encode (toNat_formatS_familyF x 0x33)
  case stored =>
    have hfit : s.i.toNat + (digits (s.reg x)).length ≤ 4096 := hin
    have hread {k : Nat} (hk : k < 3) :=
      congrArg BitVec.toNat (Memory.read_writeBytes_getElem (bs := digits (s.reg x)) hwf hfit hk)
    refine ⟨_, execFX33_of_fits x hfit, ?hundreds, ?tens, ?ones,
      onlyChanged_writeBytes hwf hfit⟩
    case hundreds => exact (hread (k := 0) (by decide)).trans (toNat_hundreds _)
    case tens => exact (hread (k := 1) (by decide)).trans (toNat_tens _)
    case ones => exact (hread (k := 2) (by decide)).trans (toNat_ones _)
  case fault =>
    exact exec_of_access_out (count := 3) rfl (toNat_formatS_familyF x 0x33) (by decide) (by omega)

/-- The bytes that `FX55` stores, in the order of their addresses: `v[0]` to `v[n - 1]` (R167). -/
def State.regBlock (s : State) (n : Nat) : List Byte :=
  (List.range n).map fun k => s.reg (Fin.ofNat 16 k)

@[simp] theorem State.length_regBlock (s : State) (n : Nat) : (s.regBlock n).length = n := by
  rw [State.regBlock, List.length_map, List.length_range]

theorem State.getElem_regBlock (s : State) {n : Nat} (k : RegIdx)
    (hk : k.val < (s.regBlock n).length) : (s.regBlock n)[k.val] = s.reg k := by
  simp only [State.regBlock, List.getElem_map, List.getElem_range, Fin.ofNat_val_eq_self]

/-- `FX55` with room for its bytes stores `v[0]` to `v[x]` at `i` (R167). -/
theorem execFX55_of_fits (x : RegIdx) {s : State} (hfit : s.i.toNat + (x.val + 1) ≤ 4096) :
    exec (.opFX55 x) s = .next { s with
      mem := s.mem.writeBytes s.params.font s.i.toNat (s.regBlock (x.val + 1)) } := by
  rw [State.regBlock, ← Memory.forEach_write_eq_writeBytes]
  exact State.accessing_of_fits _ _ hfit

/-- Settles O22: the block stored is that of the registers up to `v[x]`. -/
theorem registerBlockIsStored : Obligations.RegisterBlockIsStored := by
  intro x s hwf
  refine ⟨?word, fun hin => ?stored, fun hout => ?fault⟩
  case word => exact decode_ofNat_of_toNat_encode (toNat_formatS_familyF x 0x55)
  case stored =>
    have hfit : s.i.toNat + (s.regBlock (x.val + 1)).length ≤ 4096 := by
      rw [State.length_regBlock]
      omega
    refine ⟨_, execFX55_of_fits x hin, fun k hk => ?block, ?frame⟩
    case block =>
      have hlen : k.val < (s.regBlock (x.val + 1)).length := by
        rw [State.length_regBlock]
        exact Nat.lt_succ_of_le hk
      exact (Memory.read_writeBytes_getElem hwf hfit hlen).trans (s.getElem_regBlock k hlen)
    case frame =>
      refine (onlyChanged_writeBytes hwf hfit).mono ?_
      rintro p ⟨k, hk, rfl⟩
      rw [State.length_regBlock] at hk
      exact ⟨⟨k, by omega⟩, Nat.le_of_lt_succ hk, rfl⟩
  case fault => exact exec_of_access_out rfl (toNat_formatS_familyF x 0x55) (by omega) (by omega)

/-- The load loop of R168 sets the elements below its count, each to its own byte, and no other. -/
theorem getElem_forEach_set (f : Nat → Byte) (v : Vector Byte 16) (k : RegIdx) :
    ∀ {n : Nat}, n ≤ 16 → (forEach n (fun j v => Vector.set v (Fin.ofNat 16 j).val (f j)) v)[k.val] =
      if k.val < n then f k.val else v[k.val]
  | 0, _ => rfl
  | n + 1, hn => by
    have hmod : (Fin.ofNat 16 n).val = n := Nat.mod_eq_of_lt hn
    rw [forEach_succ, Vector.getElem_set, getElem_forEach_set f v k (by omega), hmod]
    rcases Nat.lt_trichotomy k.val n with hlt | heq | hgt
    · rw [if_neg (by omega), if_pos hlt, if_pos (by omega)]
    · rw [if_pos heq.symm, if_pos (by omega), heq]
    · rw [if_neg (by omega), if_neg (by omega), if_neg (by omega)]

/-- The state that `FX65` leaves when its bytes are in range: `v[0]` to `v[x]` loaded from `i`
upward (R168). -/
def State.loadBlock (s : State) (x : RegIdx) : State :=
  { s with
    v := forEach (x.val + 1)
      (fun k v => Vector.set v (Fin.ofNat 16 k).val (s.read (s.i.toNat + k))) s.v }

/-- A register after the block is loaded: its byte of the block, or its old value above `v[x]`
(R168). -/
theorem State.reg_loadBlock (s : State) (x k : RegIdx) :
    (s.loadBlock x).reg k = if k ≤ x then s.read (s.i.toNat + k.val) else s.reg k := by
  simp only [← Fin.val_fin_le, ← Nat.lt_succ_iff]
  exact getElem_forEach_set (fun k => s.read (s.i.toNat + k)) s.v k x.isLt

/-- The frame of a loaded block: the registers above `v[x]` keep their values, and no other piece
reads the register file. -/
theorem onlyChanged_loadBlock (s : State) (x : RegIdx) :
    OnlyChanged (fun p => ∃ k : RegIdx, k ≤ x ∧ p = .reg k) s (s.loadBlock x) := by
  intro p hp
  cases p
  case reg k =>
    have hk : ¬ k ≤ x := fun h => hp ⟨k, h, rfl⟩
    exact (s.reg_loadBlock x k).trans (if_neg hk)
  all_goals rfl

/-- `FX65` with its bytes in range loads the block (R168). -/
theorem execFX65_of_fits (x : RegIdx) {s : State} (hfit : s.i.toNat + (x.val + 1) ≤ 4096) :
    exec (.opFX65 x) s = .next (s.loadBlock x) :=
  State.accessing_of_fits _ _ hfit

/-- Settles O23: the bytes are read from the memory before the load, which no round changes. -/
theorem registerBlockIsLoaded : Obligations.RegisterBlockIsLoaded := by
  intro x s
  refine ⟨?word, fun hin => ?loaded, fun hout => ?fault⟩
  case word => exact decode_ofNat_of_toNat_encode (toNat_formatS_familyF x 0x65)
  case loaded =>
    refine ⟨_, execFX65_of_fits x hin, fun k hk => ?block, onlyChanged_loadBlock s x⟩
    case block => rw [State.reg_loadBlock, if_pos hk]
  case fault => exact exec_of_access_out rfl (toNat_formatS_familyF x 0x65) (by omega) (by omega)

end Sys2Proof.Machine
end

section
/-! PROOFS for spec file 60 (exceptions) and the host's operations: a raised fault is precise and
sticky; the ticks, the load of a program, the keys and the outputs. -/

namespace Sys2Proof.Machine

/-- The word that a step fetches, 0 when the fetch fails (R86): the `fault_op` of R194. -/
def State.fetchedWord (s : State) : Word := s.fetch.toOption.getD 0

theorem State.fetchedWord_of_ok {s : State} {op : Word} (h : s.fetch = .ok op) :
    s.fetchedWord = op := by
  rw [State.fetchedWord, h]
  rfl

theorem State.fetchedWord_of_error {s : State} {a : Nat} (h : s.fetch = .error a) :
    s.fetchedWord = 0 := by
  rw [State.fetchedWord, h]
  rfl

/-- A 16-bit base address keeps the recorded address below 65551 (R194). -/
theorem FaultRecord.wf_of_outOfBounds (pc op base : Word) :
    (FaultRecord.mk .memoryOutOfBounds pc op (max base.toNat 4096)).wf pc :=
  ⟨rfl, fun _ => ⟨Nat.le_max_right _ _, Nat.max_le.2 ⟨by omega, by decide⟩⟩,
    fun hne => absurd rfl hne⟩

/-- A cause other than `MemoryOutOfBounds` records the address 0 (R194). -/
theorem FaultRecord.wf_of_ne_outOfBounds {c : Fault} (pc op : Word) (hc : c ≠ .memoryOutOfBounds) :
    (FaultRecord.mk c pc op 0).wf pc :=
  ⟨rfl, fun h => absurd h hc, fun _ => rfl⟩

/-- The fault an instruction raises is recorded as R194 has it. -/
theorem RaiseCond.wf_record {i : Instr} {s : State} {c : Fault} {a : Nat} (h : RaiseCond i s c a)
    (pc op : Word) : (FaultRecord.mk c pc op a).wf pc := by
  rcases h with ⟨rfl, -, -, rfl⟩ | ⟨rfl, -, -, rfl⟩ | ⟨rfl, -, -, rfl⟩
  · exact FaultRecord.wf_of_outOfBounds pc op s.i
  · exact FaultRecord.wf_of_ne_outOfBounds pc op (by decide)
  · exact FaultRecord.wf_of_ne_outOfBounds pc op (by decide)

/-- A step that leaves the latch set, empty before, has latched one well-formed record with the
fetched word and changed nothing else (R184, R194). -/
theorem latchFault_of_step {s t : State} (hfault : s.fault = none) (hs : step s = .next t)
    (ht : t.fault ≠ none) : ∃ c a, t = s.latchFault c s.fetchedWord a ∧
      (FaultRecord.mk c s.pc s.fetchedWord a).wf s.pc := by
  rcases step_cases s with ⟨r, hr, -⟩ | ⟨-, hpc, hs'⟩ | ⟨op, e, -, hf, -, hs'⟩ |
    ⟨op, i, t', -, -, hf, hd, -, hs', -, ⟨hnone, -⟩ | ⟨c, a, rfl, hraise⟩⟩
  · cases hfault.symm.trans hr
  · cases hs.symm.trans hs'
    rw [State.fetchedWord_of_error (State.fetch_of_out hpc)]
    exact ⟨_, _, rfl, FaultRecord.wf_of_outOfBounds s.pc 0 s.pc⟩
  · cases hs.symm.trans hs'
    rw [State.fetchedWord_of_ok hf]
    exact ⟨_, _, rfl, FaultRecord.wf_of_ne_outOfBounds s.pc op (by decide)⟩
  · cases hs.symm.trans hs'
    exact absurd hnone ht
  · cases hs.symm.trans hs'
    rw [State.fetchedWord_of_ok hf, encode_of_decode hd]
    exact ⟨c, a, rfl, hraise.wf_record s.pc op⟩

/-- Settles O28: the record reported is the one latched, with the fetched word. -/
theorem faultsArePrecise : Obligations.FaultsArePrecise := by
  intro s t r hfault hs hr
  have hrep : hostOp .step s = .next (t, .stepped (.fault r)) :=
    stepReport_eq_fault.2 hr ▸ hostOp_step hs
  obtain ⟨c, a, rfl, hpc, hmem, hother⟩ := latchFault_of_step hfault hs (by simp [hr])
  cases hr
  exact ⟨rfl, hrep, hpc, fun _ hf => State.fetchedWord_of_ok hf,
    fun _ hf => State.fetchedWord_of_error hf, hmem, hother⟩

/-- A tick takes 1 from a timer, floored at 0 (R200). -/
theorem toNat_countdown (b : Byte) : (countdown b).toNat = b.toNat - 1 := by
  unfold countdown
  split_ifs with hb
  · simp [hb]
  · bv_omega

/-- `n` ticks take `n` from a timer, floored at 0 (R201). -/
theorem toNat_iterate_countdown (n : Nat) (b : Byte) : (countdown^[n] b).toNat = b.toNat - n := by
  have hpred : Function.Semiconj BitVec.toNat countdown Nat.pred := toNat_countdown
  rw [hpred.iterate_right n b, Nat.pred_iterate]

/-- The frame of a tick: no other piece reads either timer. -/
theorem onlyChanged_tickTimers (s : State) :
    OnlyChanged (fun p => p = .delayTimer ∨ p = .soundTimer) s (tickTimers s) := by
  intro p hp
  cases p
  case delayTimer => exact absurd (.inl rfl) hp
  case soundTimer => exact absurd (.inr rfl) hp
  all_goals rfl

/-- Settles O42: each timer counts down by itself, whatever the other pieces hold. -/
theorem ticksCountDownToZero : Obligations.TicksCountDownToZero := by
  intro s
  have hdelay : Function.Semiconj State.delayTimer tickTimers countdown := fun _ => rfl
  have hsound : Function.Semiconj State.soundTimer tickTimers countdown := fun _ => rfl
  refine ⟨rfl, onlyChanged_tickTimers s, fun n => ?_⟩
  rw [hdelay.iterate_right n s, hsound.iterate_right n s]
  exact ⟨toNat_iterate_countdown n _, toNat_iterate_countdown n _⟩

/-- A program of at most 3584 bytes is stored from 0x200 upward (R207). -/
theorem load_of_fits {bytes : List Byte} (s : State) (h : bytes.length ≤ 3584) :
    load bytes s = ({ s with mem := s.mem.writeBytes s.params.font 0x200 bytes }, .ok) :=
  if_neg (Nat.not_lt.2 h)

/-- A longer program is not stored at all (R207). -/
theorem load_of_tooLong {bytes : List Byte} (s : State) (h : 3584 < bytes.length) :
    load bytes s = (s, .romTooLarge) :=
  if_pos h

/-- The frame of a block of bytes stored at any base: every other byte reads as before, and no other
piece reads memory. -/
theorem onlyChanged_writeBytes_at {s : State} {bs : List Byte} {base : Nat}
    (hwf : s.mem.wf s.params.font = true) (hfit : base + bs.length ≤ 4096) :
    OnlyChanged (fun p => ∃ k, k < bs.length ∧ p = .byte (base + k)) s
      { s with mem := s.mem.writeBytes s.params.font base bs } := by
  intro p hp
  cases p
  case byte a =>
    exact Memory.read_writeBytes_of_ne hwf hfit fun k hk ha =>
      hp ⟨k, hk, congrArg Piece.byte ha⟩
  all_goals rfl

/-- Settles O43: 0x200 and 3584 bytes more end at 4096, so a program that is stored fits. -/
theorem loadCopiesAllOrNothing : Obligations.LoadCopiesAllOrNothing := by
  intro bytes s hwf
  refine ⟨fun hlen => ?stored, fun hlen => ?rejected⟩
  case stored =>
    have hfit : 0x200 + bytes.length ≤ 4096 := by omega
    refine ⟨_, by rw [hostOp, load_of_fits s hlen], fun k hk => ?_,
      onlyChanged_writeBytes_at hwf hfit⟩
    exact Memory.read_writeBytes_getElem hwf hfit hk
  case rejected => rw [hostOp, load_of_tooLong s hlen]

/-- A load, done or rejected, leaves the latch as it was (R185). -/
@[simp] theorem fault_load (bytes : List Byte) (s : State) : (load bytes s).1.fault = s.fault := by
  unfold load
  split <;> rfl

/-- No host operation but a step and `reset` touches the latch (R185). -/
theorem fault_of_hostOp {op : HostOp} {s t : State} {res : HostResult} (hstep : op ≠ .step)
    (hreset : op ≠ .reset) (h : hostOp op s = .next (t, res)) : t.fault = s.fault := by
  cases op
  case step => exact absurd rfl hstep
  case reset => exact absurd rfl hreset
  all_goals cases h
  case load bytes => exact fault_load bytes s
  all_goals rfl

/-- Settles O46: of the two operations that may touch the latch, a step of a latched machine changes
nothing, and `reset` clears it. -/
theorem onlyResetClearsTheLatch : Obligations.OnlyResetClearsTheLatch := by
  intro s t r op res hr h
  have hstep (hop : op = .step) : t = s ∧ res = .stepped (.fault r) := by
    subst hop
    cases h.symm.trans (latchedFaultHaltsTheStep s r hr).2
    exact ⟨rfl, rfl⟩
  refine ⟨hstep, fun hreset => ?kept, fun hreset => ?cleared⟩
  case kept =>
    by_cases hop : op = .step
    · exact (hstep hop).1 ▸ hr
    · exact (fault_of_hostOp hop hreset h).trans hr
  case cleared =>
    subst hreset
    cases h
    rfl

/-- The frame of one key's level: every other key keeps its own. -/
theorem onlyChanged_setKey (s : State) (k : KeyIdx) (b : Bool) :
    OnlyChanged (· = .key k) s (setKey k b s) := by
  intro p hp
  cases p
  case key j =>
    have hkj : k.val ≠ j.val := fun h => hp (congrArg Piece.key (Fin.ext h.symm))
    exact Vector.getElem_set_ne k.isLt j.isLt hkj
  all_goals rfl

/-- The frame of the redraw signal: no other piece reads it. -/
theorem onlyChanged_clearRedraw (s : State) : OnlyChanged (· = .redraw) s (clearRedraw s) := by
  intro p hp
  cases p
  case redraw => exact absurd rfl hp
  all_goals rfl

/-- The index `y * 64 + x` reads the cell `(x, y)` (R211). -/
theorem readFbCell_of_index (s : State) {idx : Fin 2048} {x : Fin 64} {y : Fin 32}
    (h : idx.val = y.val * 64 + x.val) : readFbCell s idx = s.fb.cell x y := by
  have hx : idx.val % 64 = x.val := by omega
  have hy : idx.val / 64 = y.val := by omega
  simp only [readFbCell, hx, hy]

/-- Settles O45: a key by the frame of its write, a cell by its index, the rest by the field that
the operation reads or clears. -/
theorem hostSetsKeysAndReadsOutputs : Obligations.HostSetsKeysAndReadsOutputs := by
  intro s
  refine ⟨fun k b => ?setKey, ⟨s.fb, rfl, fun _ _ => rfl⟩, fun idx x y hidx => ?readCell, rfl,
    ⟨_, rfl, rfl, onlyChanged_clearRedraw s⟩, ⟨_, rfl, bne_iff_ne⟩⟩
  case setKey => exact ⟨_, rfl, Vector.getElem_set_self k.isLt, onlyChanged_setKey s k b⟩
  case readCell => rw [hostOp, readFbCell_of_index s hidx]

end Sys2Proof.Machine
end

section
/-! PROOFS for spec file 30 (encoding), continued: the round trips of R66, and the illegal words of
R71, one lemma for each family whose dispatch can fail. -/

namespace Sys2Proof.Machine

/-- Settles O37: the word by `decode_encode`, the bytes since they make the word again. -/
theorem decodeOfEncode : Obligations.DecodeOfEncode := by
  intro i
  refine ⟨decode_encode i, ?_⟩
  rw [encodeBytes, decodeBytes, wordOfBytes_bytes, decode_encode]

/-- Settles O38: the fields of the word make it again, in the format of what it decodes to. -/
theorem encodeOfDecode : Obligations.EncodeOfDecode :=
  fun _ _ h => encode_of_decode h

/-- Settles O41: seven closed runs of the decoder. -/
theorem sampleWordsDecode : Obligations.SampleWordsDecode :=
  ⟨rfl, rfl, rfl, rfl, rfl, rfl, rfl⟩

/-- The family is the first hexadecimal digit of the word (R66). -/
theorem toNat_fieldN3 (w : Word) : (fieldN3 w).toNat = w.toNat / 4096 := by
  rw [fieldN3, BitVec.extractLsb'_toNat, Nat.shiftRight_eq_div_pow]
  omega

/-- `N` is the last hexadecimal digit (R67). -/
theorem toNat_fieldN (w : Word) : (fieldN w).toNat = w.toNat % 16 := BitVec.extractLsb'_toNat 0 4 w

/-- `NN` is the last two hexadecimal digits (R67). -/
theorem toNat_fieldNN (w : Word) : (fieldNN w).toNat = w.toNat % 256 :=
  BitVec.extractLsb'_toNat 0 8 w

theorem fieldN_eq_zero_iff {w : Word} : fieldN w = 0 ↔ w.toNat % 16 = 0 := by
  rw [← BitVec.toNat_inj, toNat_fieldN]
  rfl

theorem fieldNN_eq_iff {w : Word} {nn : Byte} : fieldNN w = nn ↔ w.toNat % 256 = nn.toNat := by
  rw [← BitVec.toNat_inj, toNat_fieldNN]

/-- Family 0 has two words (R71). -/
theorem decodeFamily0_eq_error_iff {w : Word} : decodeFamily0 w = .error (.unknownOpcode w) ↔
    w.toNat ≠ 0x00E0 ∧ w.toNat ≠ 0x00EE := by
  simp only [decodeFamily0, ← BitVec.toNat_inj]
  split_ifs with hE0 hEE <;> simp_all

/-- Families 5 and 9 have the words with `N` 0 (R71, R113, R136). -/
theorem ite_fieldN_eq_error_iff {w : Word} {i : Instr} :
    (if fieldN w = 0 then .ok i else .error (.unknownOpcode w) : Except DecodeError Instr) =
      .error (.unknownOpcode w) ↔ w.toNat % 16 ≠ 0 := by
  rw [Ne, ← fieldN_eq_zero_iff]
  split_ifs with hn
  · simp [hn]
  · exact iff_of_true rfl hn

/-- Family 8 lacks seven values of `N` (R71). -/
theorem decodeFamily8_eq_error_iff {w : Word} : decodeFamily8 w = .error (.unknownOpcode w) ↔
    w.toNat % 16 ∈ [0x8, 0x9, 0xA, 0xB, 0xC, 0xD, 0xF] := by
  have hlt : w.toNat % 16 < 16 := Nat.mod_lt _ (by decide)
  simp only [decodeFamily8, toNat_fieldN]
  generalize w.toNat % 16 = n at hlt
  interval_cases n <;> simp

/-- Family E has two values of `NN` (R71). -/
theorem decodeFamilyE_eq_error_iff {w : Word} : decodeFamilyE w = .error (.unknownOpcode w) ↔
    w.toNat % 256 ∉ [0x9E, 0xA1] := by
  simp only [decodeFamilyE, fieldNN_eq_iff]
  split_ifs with h9E hA1 <;> simp_all

/-- Family F has nine values of `NN` (R71). -/
theorem decodeFamilyF_eq_error_iff {w : Word} : decodeFamilyF w = .error (.unknownOpcode w) ↔
    w.toNat % 256 ∉ [0x07, 0x0A, 0x15, 0x18, 0x1E, 0x29, 0x33, 0x55, 0x65] := by
  simp only [decodeFamilyF, fieldNN_eq_iff]
  split_ifs <;> simp_all

/-- Settles O40: the ten other families answer an instruction for every word. -/
theorem illegalWordsAreExactlyTheseFamilies : Obligations.IllegalWordsAreExactlyTheseFamilies := by
  intro w
  have hlt : (fieldN3 w).toNat < 16 := (fieldN3 w).isLt
  unfold decode
  rw [← toNat_fieldN3]
  split
  case h_1 h3 => rw [decodeFamily0_eq_error_iff, h3]; simp
  case h_6 h3 | h_10 h3 => rw [ite_fieldN_eq_error_iff, h3]; simp
  case h_9 h3 => rw [decodeFamily8_eq_error_iff, h3]; simp
  case h_15 h3 => rw [decodeFamilyE_eq_error_iff, h3]; simp
  case h_16 h3 => rw [decodeFamilyF_eq_error_iff, h3]; simp
  case h_17 =>
    simp only [imp_false] at *
    omega
  all_goals
    rename_i h3
    simp [h3]

end Sys2Proof.Machine
end

section
/-! PROOFS for spec file 40 (the step cycle), continued: what an instruction changes (R95), the
registers it writes (R12), and `pc` after it (R97), each said once for `exec` and then read off for
the step. -/

namespace Sys2Proof.Machine

/-- R95 for one instruction: the pieces that may differ in `t`, each with the instructions that
alone may change it; `pc`, the latch and the count of draws are not spoken of. -/
structure InstrFrame (i : Instr) (s t : State) : Prop where
  key : t.key = s.key
  params : t.params = s.params
  delayTimer : t.delayTimer ≠ s.delayTimer → ∃ x, i = .opFX15 x
  soundTimer : t.soundTimer ≠ s.soundTimer → ∃ x, i = .opFX18 x
  redraw : t.redraw ≠ s.redraw → t.redraw = true ∧ (i = .op00E0 ∨ ∃ x y n, i = .opDXYN x y n)
  mem : t.mem ≠ s.mem → ∃ x, i = .opFX33 x ∨ i = .opFX55 x
  fb : t.fb ≠ s.fb → i = .op00E0 ∨ ∃ x y n, i = .opDXYN x y n
  stack : t.stack ≠ s.stack ∨ t.sp ≠ s.sp → i = .op00EE ∨ ∃ nnn, i = .op2NNN nnn
  index : t.i ≠ s.i → (∃ nnn, i = .opANNN nnn) ∨ ∃ x, i = .opFX1E x ∨ i = .opFX29 x
  reg : ∀ k, t.reg k ≠ s.reg k → k ∈ regsWritten i

/-- A raised fault leaves every piece that a frame speaks of (R184). -/
theorem InstrFrame.raise (i : Instr) (s : State) (c : Fault) (op : Word) (a : Nat) :
    InstrFrame i s (s.raise c op a) := by
  constructor <;> simp

/-- An access has the frame of its effect, since its fault has every frame. -/
theorem InstrFrame.accessing {i : Instr} {s t done : State} {op : Word} {count : Nat}
    (h : s.accessing op count done = .next t) (hdone : InstrFrame i s done) :
    InstrFrame i s t := by
  rcases s.accessing_cases op count done with ⟨-, hd⟩ | ⟨a, -, hr⟩
  · cases h.symm.trans hd
    exact hdone
  · cases h.symm.trans hr
    exact InstrFrame.raise i s _ _ _

/-- A register changed by a write is the one written. -/
theorem eq_of_reg_setReg_ne {s : State} {x k : RegIdx} {b : Byte}
    (h : (s.setReg x b).reg k ≠ s.reg k) : k = x := by
  by_contra hne
  exact h (State.reg_setReg_of_ne s b (Ne.symm hne))

/-- A register changed by a result and its flag is one of the two written. -/
theorem eq_or_eq_of_reg_setResult_ne {s : State} {x k : RegIdx} {p : Byte × Byte}
    (h : (s.setResult x p).reg k ≠ s.reg k) : k = x ∨ k = 15 := by
  by_contra hne
  rw [not_or] at hne
  rw [State.reg_setResult, if_neg hne.2, if_neg hne.1] at h
  exact h rfl

/-- A write to `v[x]` has the frame of every instruction whose table row gives it `v[x]`. -/
theorem InstrFrame.setReg {i : Instr} {x : RegIdx} (s : State) (b : Byte)
    (hx : x ∈ regsWritten i) : InstrFrame i s (s.setReg x b) := by
  constructor
  case reg => exact fun k hk => eq_of_reg_setReg_ne hk ▸ hx
  all_goals simp

/-- A result and its flag have the frame of every instruction whose table row gives it both. -/
theorem InstrFrame.setResult {i : Instr} {x : RegIdx} (s : State) (p : Byte × Byte)
    (hi : regsWritten i = [x, 15]) : InstrFrame i s (s.setResult x p) := by
  constructor
  case reg =>
    intro k hk
    simpa [hi] using eq_or_eq_of_reg_setResult_ne hk
  all_goals simp

theorem InstrFrame.loadBlock (s : State) (x : RegIdx) :
    InstrFrame (.opFX65 x) s (s.loadBlock x) := by
  constructor
  case reg =>
    intro k hk
    rw [State.reg_loadBlock] at hk
    have hkx : k ≤ x := by
      by_contra hle
      exact hk (if_neg hle)
    simpa [regsWritten, mem_allKeys] using hkx
  all_goals simp [State.loadBlock]

/-- Every instruction keeps its frame (R12, R95). -/
theorem instrFrame_of_exec {i : Instr} {s t : State} (h : exec i s = .next t) :
    InstrFrame i s t := by
  cases i
  case op00EE =>
    rcases Nat.eq_zero_or_pos s.sp.val with h0 | hpos
    · cases h.symm.trans (exec00EE_of_empty h0)
      exact InstrFrame.raise _ s _ _ _
    · cases h.symm.trans (exec00EE_of_pos hpos)
      constructor <;> simp [State.reg]
  case op2NNN nnn =>
    rcases Nat.lt_or_ge s.sp.val 16 with hlt | hge
    · cases h.symm.trans (exec2NNN_of_lt nnn hlt)
      constructor <;> simp [State.reg]
    · cases h.symm.trans (exec2NNN_of_full nnn (by omega))
      exact InstrFrame.raise _ s _ _ _
  case opDXYN x y n =>
    refine InstrFrame.accessing h ?_
    constructor
    case reg => exact fun k hk => List.mem_singleton.2 (eq_of_reg_setReg_ne hk)
    all_goals simp
  case opFX33 x =>
    refine InstrFrame.accessing h ?_
    constructor <;> simp [State.reg]
  case opFX55 x =>
    refine InstrFrame.accessing h ?_
    constructor <;> simp [State.reg]
  case opFX65 x => exact InstrFrame.accessing h (InstrFrame.loadBlock s x)
  case opFX0A x =>
    simp only [exec, execFX0A] at h
    cases hk : s.selectedKey with
    | none =>
      cases hk ▸ h
      constructor <;> simp
    | some k =>
      cases hk ▸ h
      exact InstrFrame.setReg s _ (List.mem_singleton_self x)
  case opCXNN x nn =>
    cases h
    constructor
    case reg => exact fun k hk => List.mem_singleton.2 (eq_of_reg_setReg_ne hk)
    all_goals simp
  case op6XNN x _ | op7XNN x _ | op8XY0 x _ | op8XY1 x _ | op8XY2 x _ | op8XY3 x _ | opFX07 x =>
    cases h
    exact InstrFrame.setReg s _ (List.mem_singleton_self x)
  case op8XY4 | op8XY5 | op8XY6 | op8XY7 | op8XYE =>
    cases h
    exact InstrFrame.setResult s _ rfl
  all_goals
    cases h
    constructor <;> simp [State.reg]

/-- What a step does beside `pc` and the count of draws: it changes the latch alone, or it keeps the
frame of the instruction it runs (R94, R95, R184). -/
theorem step_frame {s t : State} (h : step s = .next t) :
    (∃ f, t = { s with fault := f }) ∨ ∃ i, s.fetchInstr = .ok i ∧ InstrFrame i s.advance t := by
  rcases step_cases s with ⟨r, -, hs⟩ | ⟨-, -, hs⟩ | ⟨op, e, -, -, -, hs⟩ |
    ⟨op, i, t', -, -, -, -, hi, hs, hexec, -⟩
  · cases h.symm.trans hs
    exact .inl ⟨_, rfl⟩
  · cases h.symm.trans hs
    exact .inl ⟨_, rfl⟩
  · cases h.symm.trans hs
    exact .inl ⟨_, rfl⟩
  · cases h.symm.trans hs
    exact .inr ⟨i, hi, instrFrame_of_exec hexec⟩

/-- Settles O30: the instruction that a frame names is the one fetched. -/
theorem stepChangesOnlyWhatItsInstructionMay :
    Obligations.StepChangesOnlyWhatItsInstructionMay := by
  intro s t h
  rcases step_frame h with ⟨f, rfl⟩ | ⟨i, hi, hframe⟩
  · simp
  · rw [hi]
    simp only [Except.ok.injEq]
    refine ⟨hframe.key, hframe.params, hframe.delayTimer, hframe.soundTimer, fun hlit => ?lit,
      fun hne => (hframe.redraw hne).2, hframe.mem, hframe.fb, hframe.stack, hframe.index⟩
    case lit =>
      by_cases hsame : t.redraw = s.redraw
      · exact hsame.trans hlit
      · exact (hframe.redraw hsame).1

/-- An access that leaves the latch empty has completed. -/
theorem eq_done_of_accessing {s t done : State} {op : Word} {count : Nat}
    (h : s.accessing op count done = .next t) (ht : t.fault = none) : t = done := by
  rcases s.accessing_cases op count done with ⟨-, hd⟩ | ⟨a, -, hr⟩
  · cases h.symm.trans hd
    rfl
  · cases h.symm.trans hr
    cases ht

/-- After a flag-writing instruction that completes `v[15]` is 0 or 1 (R13). -/
theorem flag_of_exec {i : Instr} {s t : State} (h : exec i s = .next t) (ht : t.fault = none)
    (hi : ∃ x y n, i = .op8XY4 x y ∨ i = .op8XY5 x y ∨ i = .op8XY6 x y ∨ i = .op8XY7 x y ∨
      i = .op8XYE x y ∨ i = .opDXYN x y n) : t.reg 15 = 0 ∨ t.reg 15 = 1 := by
  have flag {x : RegIdx} {p : Byte × Byte} {c : Bool} (hp : p.2 = flagByte c) :
      (s.setResult x p).reg 15 = 0 ∨ (s.setResult x p).reg 15 = 1 := by
    rw [State.reg_setResult, if_pos rfl, hp]
    exact flagByte_cases c
  obtain ⟨x, y, n, rfl | rfl | rfl | rfl | rfl | rfl⟩ := hi
  on_goal 6 =>
    cases eq_done_of_accessing h ht
    have hreg := State.reg_setReg_self s 15
    exact (flagByte_cases _).imp (hreg _).trans (hreg _).trans
  all_goals
    cases h
    exact flag rfl

/-- Settles O31: the registers by the frame, the flag by its last write. -/
theorem stepWritesOnlyTheTabledRegisters : Obligations.StepWritesOnlyTheTabledRegisters := by
  intro s t h
  refine ⟨fun k hk => ?tabled, fun i hi ht hflag => ?flag⟩
  case tabled =>
    rcases step_frame h with ⟨f, rfl⟩ | ⟨i, hi, hframe⟩
    · exact absurd rfl hk
    · exact ⟨i, hi, hframe.reg k hk⟩
  case flag =>
    cases hfault : s.fault with
    | some r =>
      cases h.symm.trans (step_of_latched hfault)
      cases ht.symm.trans hfault
    | none => exact flag_of_exec ((step_of_instr hfault hi).symm.trans h) ht hflag

end Sys2Proof.Machine
end

section
/-! PROOFS for spec file 40, section 3 (`pc` after every step), spec files 10, 20 and 60 (the two
invariants), and the conditions of the four causes of a fault. -/

namespace Sys2Proof.Machine

/-- A taken skip has advanced `pc` twice (R97). -/
theorem pc_skipIf_advance (s : State) (c : Bool) :
    (s.advance.skipIf c).pc = if c then s.pc + 4 else s.pc + 2 := by
  have htwice : s.pc + 2 + 2 = s.pc + 4 := by bv_omega
  rw [State.skipIf_pc, State.advance_pc, htwice]

/-- R97's table holds of every instruction that completes. -/
theorem pc_of_exec_advance {i : Instr} {s t : State} (h : exec i s.advance = .next t)
    (ht : t.fault = none) : t.pc = pcAfter i s := by
  cases i
  case op00EE =>
    rcases Nat.eq_zero_or_pos s.sp.val with h0 | hpos
    · cases h.symm.trans (exec00EE_of_empty (s := s.advance) h0)
      cases ht
    · cases h.symm.trans (exec00EE_of_pos (s := s.advance) hpos)
      exact (if_neg hpos.ne').symm
  case op2NNN nnn =>
    rcases Nat.lt_or_ge s.sp.val 16 with hlt | hge
    · cases h.symm.trans (exec2NNN_of_lt (s := s.advance) nnn hlt)
      rfl
    · have hfull : s.advance.sp.val = 16 := Nat.le_antisymm (Nat.le_of_lt_succ s.sp.isLt) hge
      cases h.symm.trans (exec2NNN_of_full nnn hfull)
      cases ht
  case opFX0A x =>
    simp only [exec, execFX0A] at h
    cases hk : s.advance.selectedKey with
    | none =>
      cases hk ▸ h
      have hnone : s.pressedKeys = [] := selectKey_eq_none.1 hk
      rw [State.retreat_advance, pcAfter, if_pos hnone]
    | some k =>
      cases hk ▸ h
      have hsome : s.pressedKeys ≠ [] := List.ne_nil_of_mem (selectKey_mem hk)
      exact (if_neg hsome).symm
  case opDXYN | opFX33 | opFX55 | opFX65 =>
    cases eq_done_of_accessing h ht
    rfl
  case op3XNN | op4XNN | op5XY0 | op9XY0 | opEX9E | opEXA1 =>
    cases h
    exact pc_skipIf_advance s _
  all_goals
    cases h
    rfl

/-- Settles O32: an instruction that completes by R97's table, a fault by R184. -/
theorem pcAfterEveryStep : Obligations.PcAfterEveryStep := by
  intro s t hfault h
  refine ⟨fun i hi ht => ?completes, fun ht => ?faults⟩
  case completes => exact pc_of_exec_advance ((step_of_instr hfault hi).symm.trans h) ht
  case faults =>
    obtain ⟨c, a, rfl, -⟩ := latchFault_of_step hfault h ht
    rfl

/-- A load of bytes at `base` keeps memory canonical where they fit (R207). -/
theorem Memory.wf_writeBytes {font : Config.Font} {m : Memory} {base : Nat} {bs : List Byte}
    (h : m.wf font = true) (hfit : base + bs.length ≤ 4096) :
    (m.writeBytes font base bs).wf font = true :=
  (Memory.read_writeBytes bs base 0 h hfit).1

/-- The bytes of an instruction that raises no fault are all below 4096 (R181). -/
theorem fits_of_not_raiseCond {i : Instr} {s : State} (h : ∀ c a, ¬ RaiseCond i s c a)
    (h0 : 0 < bytesTouched i) : s.i.toNat + bytesTouched i ≤ 4096 := by
  by_contra hout
  exact h .memoryOutOfBounds _ (.inl ⟨rfl, h0, Nat.lt_of_not_le hout, rfl⟩)

/-- Every instruction keeps memory canonical: the two that write it store a block that fits. -/
theorem wf_mem_of_exec {i : Instr} {s t : State} (hwf : s.mem.wf s.params.font = true)
    (h : exec i s = .next t) : t.mem.wf t.params.font = true := by
  have hframe := instrFrame_of_exec h
  rw [hframe.params]
  by_cases hmem : t.mem = s.mem
  · rwa [hmem]
  rcases exec_cases i s with ⟨t', -, -, hnone⟩ | ⟨c, a, hraise, -⟩
  · obtain ⟨x, rfl | rfl⟩ := hframe.mem hmem
    · have hfit : s.i.toNat + 3 ≤ 4096 := fits_of_not_raiseCond hnone (Nat.zero_lt_succ 2)
      cases h.symm.trans (execFX33_of_fits x hfit)
      exact Memory.wf_writeBytes hwf hfit
    · have hfit : s.i.toNat + (x.val + 1) ≤ 4096 :=
        fits_of_not_raiseCond hnone (Nat.zero_lt_succ x.val)
      cases h.symm.trans (execFX55_of_fits x hfit)
      exact Memory.wf_writeBytes hwf ((s.length_regBlock _).symm ▸ hfit)
  · cases h.symm.trans hraise
    exact absurd rfl hmem

/-- Settles O33: memory by the instruction that ran, the record by the step that latched it. -/
theorem stepKeepsTheInvariant : Obligations.StepKeepsTheInvariant := by
  intro s t ⟨hwf, hrecord⟩ h
  cases hfault : s.fault with
  | some r =>
    cases h.symm.trans (step_of_latched hfault)
    exact ⟨hwf, hrecord⟩
  | none =>
    refine ⟨?mem, fun r hr => ?record⟩
    case mem =>
      cases hi : s.fetchInstr with
      | ok i => exact wf_mem_of_exec (s := s.advance) hwf ((step_of_instr hfault hi).symm.trans h)
      | error t' =>
        rcases step_frame h with ⟨f, rfl⟩ | ⟨i, hok, -⟩
        · exact hwf
        · cases hi.symm.trans hok
    case record =>
      obtain ⟨c, a, rfl, hwfr⟩ := latchFault_of_step hfault h (by simp [hr])
      cases hr
      exact hwfr

/-- A program that the host loads, or fails to load, leaves the invariant (R207). -/
theorem inv_load (bytes : List Byte) {s : State} (h : s.Inv) : (load bytes s).1.Inv := by
  rcases Nat.lt_or_ge 3584 bytes.length with hlong | hfits
  · rwa [load_of_tooLong s hlong]
  · rw [load_of_fits s hfits]
    exact ⟨Memory.wf_writeBytes h.1 (by omega), h.2⟩

theorem inv_resetWith (p : Config.Params) : (State.resetWith p).Inv :=
  ⟨rfl, fun _ hr => nomatch hr⟩

theorem pcBound_resetWith (p : Config.Params) : (State.resetWith p).PcBound :=
  ⟨(by decide : (0x0200 : Word).toNat ≤ 0x10FE), fun _ hk => absurd hk (Nat.not_lt_zero _)⟩

/-- Settles O34: memory lists nothing, nothing is latched, and no return address is held. -/
theorem resetHasTheInvariant : Obligations.ResetHasTheInvariant :=
  ⟨inv_resetWith _, pcBound_resetWith _⟩

/-- The step that the host's operation ran. -/
theorem step_of_hostOp {s t : State} {res : HostResult} (h : hostOp .step s = .next (t, res)) :
    step s = .next t := by
  obtain ⟨t', hs, -⟩ := step_unlatched_or_latches s
  cases h.symm.trans (hostOp_step hs)
  exact hs

/-- Settles O35: of the operations that write what the invariant speaks of, each has its own
lemma. -/
theorem hostOperationsKeepTheInvariant : Obligations.HostOperationsKeepTheInvariant := by
  intro op s t res hinv h
  cases op
  case step => exact stepKeepsTheInvariant s t hinv (step_of_hostOp h)
  all_goals cases h
  case load bytes => exact inv_load bytes hinv
  case reset => exact inv_resetWith s.params
  all_goals exact hinv

/-- The live part of the stack holds return addresses between 0x002 and 0x1000: the second bound of
`State.PcBound`. -/
def State.StackBound (s : State) : Prop :=
  ∀ k : Fin 16, k.val < s.sp.val → 0x002 ≤ s.stack[k.val].toNat ∧ s.stack[k.val].toNat ≤ 0x1000

theorem toNat_zextNNN_lt (nnn : BitVec 12) : (zextNNN nnn).toNat < 0x1000 := by
  rw [toNat_zextNNN]
  exact nnn.isLt

/-- `pc` after an instruction fetched below 4095 is at most 0x10FE, which is `BNNN`'s greatest
target (R16). -/
theorem toNat_pcAfter_le {i : Instr} {s : State} (hpc : s.pc.toNat + 1 < 4096)
    (hstack : s.StackBound) : (pcAfter i s).toNat ≤ 0x10FE := by
  have hnext : (if skipTaken i s then s.pc + 4 else s.pc + 2).toNat ≤ 0x10FE := by
    split_ifs <;> bv_omega
  cases i
  case op1NNN nnn | op2NNN nnn => exact (toNat_zextNNN_lt nnn).le.trans (by decide)
  case opBNNN nnn =>
    rw [pcAfter, toNat_zextNNN_add_zextByte]
    omega
  case op00EE =>
    rw [pcAfter]
    split_ifs with h0
    · omega
    · have hpop := hstack ⟨s.sp.val - 1, by omega⟩ (by simp only; omega)
      exact hpop.2.trans (by decide)
  case opFX0A x =>
    rw [pcAfter]
    split_ifs <;> bv_omega
  all_goals exact hnext

/-- An instruction run with `pc` between the two bounds keeps the return addresses between them: a
call pushes that `pc`, a return forgets an entry, and nothing else touches the stack (R17, R18). -/
theorem stackBound_of_exec {i : Instr} {s t : State} (h : exec i s = .next t)
    (hlo : 0x002 ≤ s.pc.toNat) (hhi : s.pc.toNat ≤ 0x1000) (hstack : s.StackBound) :
    t.StackBound := by
  by_cases hsame : t.stack = s.stack ∧ t.sp = s.sp
  · rwa [State.StackBound, hsame.1, hsame.2]
  rw [not_and_or] at hsame
  obtain rfl | ⟨nnn, rfl⟩ := (instrFrame_of_exec h).stack hsame
  · rcases Nat.eq_zero_or_pos s.sp.val with h0 | hpos
    · cases h.symm.trans (exec00EE_of_empty h0)
      exact hstack
    · cases h.symm.trans (exec00EE_of_pos hpos)
      exact fun k hk => hstack k (hk.trans_le (Nat.sub_le _ _))
  · rcases Nat.lt_or_ge s.sp.val 16 with hlt | hge
    · cases h.symm.trans (exec2NNN_of_lt nnn hlt)
      intro k hk
      simp only [Vector.getElem_set]
      split_ifs with hk'
      · exact ⟨hlo, hhi⟩
      · exact hstack k (by simp only at hk; omega)
    · cases h.symm.trans (exec2NNN_of_full nnn (by omega))
      exact hstack

/-- A step keeps both bounds: an instruction that completes was fetched below 4095 (R16, R86). -/
theorem pcBound_of_step {s t : State} (hbound : s.PcBound) (h : step s = .next t) : t.PcBound := by
  obtain ⟨hpc, hstack⟩ := hbound
  rcases step_cases s with ⟨r, -, hs⟩ | ⟨-, -, hs⟩ | ⟨op, e, -, -, -, hs⟩ |
    ⟨op, i, t', -, hfetch, -, -, -, hs, hexec, ⟨ht, -⟩ | ⟨c, a, rfl, -⟩⟩
  on_goal 4 =>
    cases h.symm.trans hs
    refine ⟨?pc, stackBound_of_exec hexec ?lo ?hi hstack⟩
    case pc => exact pc_of_exec_advance hexec ht ▸ toNat_pcAfter_le hfetch hstack
    all_goals
      rw [State.advance_pc]
      bv_omega
  all_goals
    cases h.symm.trans hs
    exact ⟨hpc, hstack⟩

/-- Settles O36: a step by its own lemma, `reset` by R220; no other operation writes `pc`, `sp` or
the stack. -/
theorem pcBoundIsKept : Obligations.PcBoundIsKept := by
  intro op s t res hbound h
  cases op
  case step => exact pcBound_of_step hbound (step_of_hostOp h)
  all_goals cases h
  case load bytes =>
    unfold load
    split_ifs <;> exact hbound
  case reset => exact pcBound_resetWith s.params
  all_goals exact hbound

/-- An instruction has one fault cause at most: only `2NNN` and `00EE` have one that is not about
memory, and they touch no byte of it (R181, R182). -/
theorem RaiseCond.cause_eq {i : Instr} {s : State} {c c' : Fault} {a a' : Nat}
    (h : RaiseCond i s c a) (h' : RaiseCond i s c' a') : c = c' := by
  rcases h with ⟨rfl, htouch, -⟩ | ⟨rfl, -, ⟨nnn, rfl⟩, -⟩ | ⟨rfl, -, rfl, -⟩
  · rcases h' with ⟨rfl, -⟩ | ⟨-, -, ⟨nnn, rfl⟩, -⟩ | ⟨-, -, rfl, -⟩
    · rfl
    · exact absurd htouch (Nat.lt_irrefl 0)
    · exact absurd htouch (Nat.lt_irrefl 0)
  · rcases h' with ⟨-, htouch, -⟩ | ⟨rfl, -⟩ | ⟨-, -, heq, -⟩
    · exact absurd htouch (Nat.lt_irrefl 0)
    · rfl
    · cases heq
  · rcases h' with ⟨-, htouch, -⟩ | ⟨-, -, ⟨nnn, heq⟩, -⟩ | ⟨rfl, -⟩
    · exact absurd htouch (Nat.lt_irrefl 0)
    · cases heq
    · rfl

/-- The cause that a step latches is the one whose condition its instruction meets. -/
theorem cause_of_step_iff {i : Instr} {s t : State} {c : Fault} (hfault : s.fault = none)
    (h : step s = .next t) (hi : s.fetchInstr = .ok i) :
    (∃ r, t.fault = some r ∧ r.cause = c) ↔ ∃ a, RaiseCond i s c a := by
  have hexec := (step_of_instr hfault hi).symm.trans h
  rcases exec_cases i s.advance with ⟨t', ht', hlatch, hnone⟩ | ⟨c', a', hraise, hcond⟩
  · cases hexec.symm.trans ht'
    have ht : t.fault = none := hlatch.trans hfault
    simp only [ht]
    exact iff_of_false (by simp) fun ⟨a, ha⟩ => hnone c a ha
  · cases hexec.symm.trans hraise
    constructor
    · rintro ⟨r, hr, rfl⟩
      cases hr
      exact ⟨a', hcond⟩
    · rintro ⟨a, ha⟩
      exact ⟨_, rfl, RaiseCond.cause_eq hcond ha⟩

/-- Settles O29: a fetch that fails, a word that is none, or an instruction, whose one cause is that
of its `RaiseCond`. -/
theorem faultsExactlyUnderTheirConditions : Obligations.FaultsExactlyUnderTheirConditions := by
  intro s t hfault h
  rcases s.fetchInstr_cases with ⟨hout, hi⟩ | ⟨op, e, hpc, hf, hd, hi⟩ | ⟨op, i, hpc, hf, hd, hi⟩
  · cases h.symm.trans (step_of_fetch_error hfault hi)
    simp [hi, State.fetch_of_out hout, hout]
  · cases h.symm.trans (step_of_fetch_error hfault hi)
    have hlt : s.pc.toNat < 4095 := Nat.lt_of_succ_lt_succ hpc
    simp [hi, hf, hd, hlt]
  · have hin : ¬ 4096 ≤ s.pc.toNat + 1 := Nat.not_le_of_lt hpc
    simp only [cause_of_step_iff hfault h hi, hi, hf, Except.ok.injEq, hin, false_or]
    simp [RaiseCond, hd]

end Sys2Proof.Machine
end

section
/-! PROOFS of what instructions do not read (spec file 10, sections 3, 4, 6 and 7), and of the
steps that change nothing (spec file 70, section 5). The four pieces that few instructions read are
changed together, by one function each, so that one theorem says which instructions commute with a
change. -/

namespace Sys2Proof.Machine

/-- A change of the pieces that few instructions read: one function for each. -/
structure Veil where
  stack : Vector Word 16 → Vector Word 16 := id
  key : Vector Bool 16 → Vector Bool 16 := id
  soundTimer : Byte → Byte := id
  redraw : Bool → Bool := id

/-- The state with the change made. -/
def Veil.apply (f : Veil) (s : State) : State :=
  { s with
    stack := f.stack s.stack
    key := f.key s.key
    soundTimer := f.soundTimer s.soundTimer
    redraw := f.redraw s.redraw }

/-- The change touches no piece that the instruction reads or overwrites (R19, R23, R30, R31). -/
structure Veil.Hidden (f : Veil) (i : Instr) : Prop where
  stack : f.stack = id ∨ i ≠ .op00EE ∧ ∀ nnn, i ≠ .op2NNN nnn
  key : f.key = id ∨ ∀ x, i ≠ .opEX9E x ∧ i ≠ .opEXA1 x ∧ i ≠ .opFX0A x
  soundTimer : f.soundTimer = id ∨ ∀ x, i ≠ .opFX18 x
  redraw : f.redraw = id ∨ i ≠ .op00E0 ∧ ∀ x y n, i ≠ .opDXYN x y n

/-- An access reads `i` alone, so an instruction that is an access commutes with a change with which
its effect commutes (R47). -/
theorem Veil.exec_apply_of_accessing {f : Veil} {i : Instr} {s done : State} {op : Word}
    {count : Nat} (h : exec i s = s.accessing op count done)
    (h' : exec i (f.apply s) = (f.apply s).accessing op count (f.apply done)) :
    exec i (f.apply s) = mapNext f.apply (exec i s) := by
  rw [h, h']
  unfold State.accessing
  have hindex : (f.apply s).i = s.i := rfl
  rw [hindex]
  cases firstOut s.i.toNat count <;> rfl

/-- An instruction commutes with every change that is hidden from it. -/
theorem Veil.exec_apply {f : Veil} {i : Instr} (h : f.Hidden i) (s : State) :
    exec i (f.apply s) = mapNext f.apply (exec i s) := by
  obtain ⟨hstack, hkey, hsound, hredraw⟩ := h
  obtain ⟨stack, key, sound, redraw⟩ := f
  simp only at hstack hkey hsound hredraw
  cases i
  case op00EE =>
    obtain rfl : stack = id := by simpa using hstack
    rcases Nat.eq_zero_or_pos s.sp.val with h0 | hpos
    · rw [exec00EE_of_empty h0, exec00EE_of_empty (s := Veil.apply _ s) h0]
      rfl
    · rw [exec00EE_of_pos hpos, exec00EE_of_pos (s := Veil.apply _ s) hpos]
      rfl
  case op2NNN nnn =>
    obtain rfl : stack = id := by simpa using hstack
    rcases Nat.lt_or_ge s.sp.val 16 with hlt | hge
    · rw [exec2NNN_of_lt nnn hlt, exec2NNN_of_lt (s := Veil.apply _ s) nnn hlt]
      rfl
    · have hfull : s.sp.val = 16 := by omega
      rw [exec2NNN_of_full nnn hfull, exec2NNN_of_full (s := Veil.apply _ s) nnn hfull]
      rfl
  case op00E0 =>
    obtain rfl : redraw = id := by simpa using hredraw
    rfl
  case opDXYN x y n =>
    obtain rfl : redraw = id := by simpa using hredraw
    exact Veil.exec_apply_of_accessing rfl rfl
  case opEX9E | opEXA1 =>
    obtain rfl : key = id := by simpa using hkey
    rfl
  case opFX0A x =>
    obtain rfl : key = id := by simpa using hkey
    have hsel : (Veil.apply ⟨stack, id, sound, redraw⟩ s).selectedKey = s.selectedKey := rfl
    simp only [exec, execFX0A, hsel]
    cases s.selectedKey <;> rfl
  case opFX18 x =>
    obtain rfl : sound = id := by simpa using hsound
    rfl
  case opFX33 | opFX55 | opFX65 => exact Veil.exec_apply_of_accessing rfl rfl
  all_goals rfl

/-- Settles O47: other keys are hidden from every instruction but the three. -/
theorem onlyKeyInstructionsReadKeys : Obligations.OnlyKeyInstructionsReadKeys := by
  intro i s keys hi
  exact Veil.exec_apply (f := { key := fun _ => keys })
    ⟨.inl rfl, .inr hi, .inl rfl, .inl rfl⟩ s

/-- The state that `DXYN` leaves when its bytes are in range (R145 to R151). -/
def State.draw (s : State) (x y : RegIdx) (n : Fin 16) : State :=
  let drawn := drawSprite (fun r => s.read (s.i.toNat + r)) n.val ((s.reg x).toNat % 64)
    ((s.reg y).toNat % 32) s.fb
  { s.setReg 15 (flagByte drawn.2) with fb := drawn.1, redraw := true }

/-- `DXYN` with no row, or with its rows in range, draws (R145, R150). -/
theorem execDXYN_of_fits {s : State} (x y : RegIdx) {n : Fin 16}
    (h : n.val = 0 ∨ s.i.toNat + n.val ≤ 4096) :
    exec (.opDXYN x y n) s = .next (s.draw x y n) := by
  simp only [exec, execDXYN, State.accessing, firstOut_eq_none.2 h, State.draw]

/-- Settles O48: where the timer or the flag is not hidden, it is overwritten. -/
theorem noInstructionReadsSoundOrRedraw : Obligations.NoInstructionReadsSoundOrRedraw := by
  intro i s b c
  refine ⟨fun hi => ?sound, ?load, fun hE0 hD => ?redraw, ?clear, ?draw⟩
  case sound =>
    exact Veil.exec_apply (f := { soundTimer := fun _ => b })
      ⟨.inl rfl, .inl rfl, .inr hi, .inl rfl⟩ s
  case redraw =>
    exact Veil.exec_apply (f := { redraw := fun _ => c })
      ⟨.inl rfl, .inl rfl, .inl rfl, .inr ⟨hE0, hD⟩⟩ s
  case load =>
    rintro x rfl
    rfl
  case clear =>
    rintro rfl
    rfl
  case draw =>
    rintro x y n rfl hfit
    rw [execDXYN_of_fits x y hfit, execDXYN_of_fits (s := { s with redraw := c }) x y hfit]
    rfl

/-- Another stack with the same live entries differs in dead cells alone (R19). -/
theorem sameButDeadStack_of_live {s : State} {stack : Vector Word 16}
    (h : ∀ k : Fin 16, k.val < s.sp.val → stack[k.val] = s.stack[k.val]) :
    SameButDeadStack s { s with stack := stack } :=
  ⟨rfl, h⟩

/-- Two runs of one instruction from states that differ in dead stack cells alone: a return reads
the newest entry, which is live, and a call makes the same new entry in both (R17, R18). -/
theorem exec_sameButDeadStack (i : Instr) {s t : State} (h : SameButDeadStack s t) :
    ∃ s' t', exec i s = .next s' ∧ exec i t = .next t' ∧ SameButDeadStack s' t' := by
  obtain ⟨ht, hlive⟩ := h
  generalize t.stack = stack at ht hlive
  subst ht
  by_cases hflow : i = .op00EE ∨ ∃ nnn, i = .op2NNN nnn
  · obtain rfl | ⟨nnn, rfl⟩ := hflow
    · rcases Nat.eq_zero_or_pos s.sp.val with h0 | hpos
      · exact ⟨_, _, exec00EE_of_empty h0, exec00EE_of_empty (s := { s with stack := stack }) h0,
          sameButDeadStack_of_live hlive⟩
      · have hpop : stack[s.sp.val - 1] = s.stack[s.sp.val - 1] :=
          hlive ⟨s.sp.val - 1, by omega⟩ (Nat.sub_lt hpos Nat.one_pos)
        refine ⟨_, _, exec00EE_of_pos hpos,
          exec00EE_of_pos (s := { s with stack := stack }) hpos, ?_⟩
        simp only [hpop]
        exact sameButDeadStack_of_live fun k hk => hlive k (hk.trans_le (Nat.sub_le _ _))
    · rcases Nat.lt_or_ge s.sp.val 16 with hlt | hge
      · refine ⟨_, _, exec2NNN_of_lt nnn hlt,
          exec2NNN_of_lt (s := { s with stack := stack }) nnn hlt,
          sameButDeadStack_of_live fun k hk => ?_⟩
        simp only [Vector.getElem_set]
        split_ifs with hk'
        · rfl
        · exact hlive k (by simp only at hk; omega)
      · have hfull : s.sp.val = 16 := by omega
        exact ⟨_, _, exec2NNN_of_full nnn hfull,
          exec2NNN_of_full (s := { s with stack := stack }) nnn hfull,
          sameButDeadStack_of_live hlive⟩
  · obtain ⟨s', hs'⟩ : ∃ s', exec i s = .next s' := by
      rcases exec_cases i s with ⟨s', hs', -⟩ | ⟨c, a, hs', -⟩ <;> exact ⟨_, hs'⟩
    have hsame := mt (instrFrame_of_exec hs').stack hflow
    simp only [not_or, not_not] at hsame
    rw [not_or, not_exists] at hflow
    have hexec := Veil.exec_apply (f := { stack := fun _ => stack })
      ⟨.inr hflow, .inl rfl, .inl rfl, .inl rfl⟩ s
    rw [hs'] at hexec
    refine ⟨s', _, hs', hexec, sameButDeadStack_of_live fun k hk => ?_⟩
    rw [hsame.1]
    exact hlive k (hsame.2 ▸ hk)

/-- The fetch reads no stack cell: the same instruction in both states, or the same fault. -/
theorem fetchInstr_sameButDeadStack {s t : State} (h : SameButDeadStack s t) :
    (∃ i, s.fetchInstr = .ok i ∧ t.fetchInstr = .ok i) ∨
    ∃ c op a, s.fetchInstr = .error (s.latchFault c op a) ∧
      t.fetchInstr = .error (t.latchFault c op a) := by
  have hfetch : t.fetch = s.fetch := by
    rw [h.1]
    rfl
  have hpc : t.pc = s.pc := by rw [h.1]
  rcases s.fetchInstr_cases with ⟨hout, hi⟩ | ⟨op, e, -, hf, hd, hi⟩ | ⟨op, i, -, hf, hd, hi⟩
  · refine .inr ⟨_, _, _, hi, ?_⟩
    rw [← hpc] at hout ⊢
    exact State.fetchInstr_of_out hout
  · exact .inr ⟨_, _, _, hi, State.fetchInstr_of_decode_error (hfetch.trans hf) hd⟩
  · exact .inl ⟨i, hi, State.fetchInstr_of_decode (hfetch.trans hf) hd⟩

/-- Settles O49: latched machines stay, a fault of the fetch is the same in both, and both run the
same instruction. -/
theorem deadStackCellsAreUnobservable : Obligations.DeadStackCellsAreUnobservable := by
  intro s t h
  have hfault : t.fault = s.fault := by rw [h.1]
  cases hs : s.fault with
  | some r => exact ⟨s, t, step_of_latched hs, step_of_latched (hfault.trans hs), h⟩
  | none =>
    have ht := hfault.trans hs
    rcases fetchInstr_sameButDeadStack h with ⟨i, hi, hi'⟩ | ⟨c, op, a, hi, hi'⟩
    · rw [step_of_instr hs hi, step_of_instr ht hi']
      refine exec_sameButDeadStack i ⟨?_, h.2⟩
      rw [h.1]
      rfl
    · refine ⟨_, _, step_of_fetch_error hs hi, step_of_fetch_error ht hi', ?_, h.2⟩
      rw [h.1]
      rfl

/-- The machine spins exactly at a jump to its own address (R231). -/
theorem State.spinning_iff {s : State} :
    s.spinning = true ↔ ∃ nnn, s.fetchInstr = .ok (.op1NNN nnn) ∧ zextNNN nnn = s.pc := by
  unfold State.spinning
  split
  case h_1 nnn hnnn => simp [hnnn]
  case h_2 hne => simpa using fun nnn hnnn => absurd hnnn (hne nnn)

/-- A jump to itself changes nothing (R231). -/
theorem step_of_spinning {s : State} (h : s.spinning = true) : step s = .next s := by
  obtain ⟨nnn, hi, hpc⟩ := State.spinning_iff.1 h
  cases hfault : s.fault with
  | some r => exact step_of_latched hfault
  | none =>
    have hjump : { s.advance with pc := zextNNN nnn } = s := by rw [hpc]; rfl
    exact (step_of_instr hfault hi).trans (congrArg Host.Outcome.next hjump)

/-- A machine with a key pressed does not wait (R231). -/
theorem waiting_setKey_true (s : State) (k : KeyIdx) : (setKey k true s).waiting = false := by
  have hmem : k ∈ (setKey k true s).pressedKeys :=
    State.mem_pressedKeys.2 (Vector.getElem_set_self k.isLt)
  rw [← Bool.not_eq_true, State.waiting_iff]
  exact fun ⟨hnone, _⟩ => List.ne_nil_of_mem hmem hnone

/-- Settles O50. -/
theorem spinningAndWaitingChangeNothing : Obligations.SpinningAndWaitingChangeNothing :=
  fun s => ⟨step_of_spinning, fun hw => ⟨step_of_waiting hw, waiting_setKey_true s⟩⟩

end Sys2Proof.Machine
end

section
/-! PROOFS for spec files 41, 45 and 48, continued: the random byte, the key wait and its table, and
the three round trips of call and return, store and load, store and fetch. -/

namespace Sys2Proof.Machine

/-- The frame of a draw: every register but `v[x]` keeps its value, and one draw more is counted. -/
theorem onlyChanged_setReg_draws (s : State) (x : RegIdx) (b : Byte) (n : Nat) :
    OnlyChanged (fun p => p = .reg x ∨ p = .draws) s { s.setReg x b with draws := n } := by
  intro p hp
  cases p
  case draws => exact absurd (.inr rfl) hp
  case reg k =>
    have hxk : x ≠ k := fun h => hp (.inl (congrArg Piece.reg h.symm))
    exact State.reg_setReg_of_ne s b hxk
  all_goals rfl

/-- Settles O17: the byte written is the masked draw, whatever the draw is. -/
theorem randomByteIsMaskedAndFresh : Obligations.RandomByteIsMaskedAndFresh := by
  intro x nn s
  have hreg := State.reg_setReg_self s x (Config.randomByte s.draws &&& nn)
  refine ⟨decode_ofNat_of_toNat_encode (toNat_formatI 0xC x nn), _, rfl, hreg, ?masked, rfl,
    onlyChanged_setReg_draws s x _ _⟩
  case masked =>
    have hmask : Config.randomByte s.draws &&& nn &&& ~~~nn = 0 := by
      rw [BitVec.and_assoc, BitVec.and_not_self]
      exact BitVec.and_zero
    exact (congrArg (· &&& ~~~nn) hreg).trans hmask

/-- No key is pressed exactly when every level is 0 (R31). -/
theorem State.pressedKeys_eq_nil {s : State} :
    s.pressedKeys = [] ↔ ∀ k : KeyIdx, s.key[k.val] = false := by
  simp [List.eq_nil_iff_forall_not_mem, State.mem_pressedKeys]

/-- The set of pressed keys is listed in rising order (R161). -/
theorem State.pressedKeys_pairwise_lt (s : State) : s.pressedKeys.Pairwise (· < ·) :=
  List.Pairwise.filter _ (by decide : allKeys.Pairwise (· < ·))

/-- With an empty table the key reported is the least one pressed (R5, R161). -/
theorem State.not_pressed_of_lt_selected {s : State} {k l : KeyIdx}
    (hk : selectKey [] s.pressedKeys = some k) (hl : l < k) : s.key[l.val] = false := by
  obtain ⟨rest, hrest⟩ : ∃ rest, s.pressedKeys = k :: rest := List.head?_eq_some_iff.1 hk
  have hsorted := s.pressedKeys_pairwise_lt
  rw [hrest, List.pairwise_cons] at hsorted
  rw [← Bool.not_eq_true, ← State.mem_pressedKeys, hrest, List.mem_cons]
  rintro (rfl | hmem)
  · exact lt_irrefl _ hl
  · exact lt_asymm hl (hsorted.1 l hmem)

/-- `FX0A` with a key pressed writes the index of the one selected (R161). -/
theorem execFX0A_of_selected {s : State} {k : KeyIdx} (x : RegIdx) (h : s.selectedKey = some k) :
    exec (.opFX0A x) s = .next (s.setReg x (keyByte k)) := by
  simp only [exec, execFX0A, h]

theorem toNat_keyByte (k : KeyIdx) : (keyByte k).toNat = k.val :=
  Nat.mod_eq_of_lt (by omega)

/-- Settles O20: the selection is of a member whenever the set has one. -/
theorem keyWaitReportsAPressedKey : Obligations.KeyWaitReportsAPressedKey := by
  intro x s
  refine ⟨decode_ofNat_of_toNat_encode (toNat_formatS_familyF x 0x0A), fun hnone => ?wait,
    fun j hj => ?report⟩
  case wait => exact execFX0A_of_no_key x (State.pressedKeys_eq_nil.2 hnone)
  case report =>
    have hsome : s.pressedKeys ≠ [] := List.ne_nil_of_mem (State.mem_pressedKeys.2 hj)
    obtain ⟨k, hk⟩ : ∃ k, s.selectedKey = some k :=
      Option.ne_none_iff_exists'.1 (mt selectKey_eq_none.1 hsome)
    refine ⟨k, _, State.mem_pressedKeys.1 (selectKey_mem hk), hk, execFX0A_of_selected x hk, ?_,
      onlyChanged_setReg s x _, fun hempty l hl => ?_⟩
    · rw [State.reg_setReg_self, toNat_keyByte]
    · rw [State.selectedKey, hempty] at hk
      exact State.not_pressed_of_lt_selected hk hl

/-- The table of a function on every set of keys, each set written as its rising list (log
entry 4). -/
def keyTable (f : List KeyIdx → KeyIdx) : List (List KeyIdx × KeyIdx) :=
  allKeys.sublists.map fun keys => (keys, f keys)

/-- The table lists every set of pressed keys. -/
theorem lookup_keyTable (f : List KeyIdx → KeyIdx) (s : State) :
    (keyTable f).lookup s.pressedKeys = some (f s.pressedKeys) :=
  List.lookup_graph f (List.mem_sublists.2 List.filter_sublist)

/-- Settles O51: the table's entry is taken, since it is a member. -/
theorem everyKeySelectionHasATable : Obligations.EveryKeySelectionHasATable := by
  intro f hf
  refine ⟨keyTable f, fun s hs => ?_⟩
  simp only [selectKey, lookup_keyTable, if_pos (hf _ hs)]

/-- Settles O26: the call's entry is the newest one, and the return forgets it. -/
theorem returnUndoesCall : Obligations.ReturnUndoesCall := by
  intro nnn s t u hroom h hstack hsp
  cases h.symm.trans (exec2NNN_of_lt nnn hroom)
  have hu : u.sp.val = (⟨s.sp.val, hroom⟩ : Fin 16).val + 1 := congrArg Fin.val hsp
  refine ⟨_, exec00EE_of_succ hu, ?_, rfl⟩
  simp only [hstack, Vector.getElem_set_self]

/-- What `FX55` stored is read back, byte by byte (R167). -/
theorem read_of_execFX55 {x : RegIdx} {s t : State} (hwf : s.mem.wf s.params.font = true)
    (hin : s.i.toNat + x.val < 4096) (h : exec (.opFX55 x) s = .next t) {k : RegIdx} (hk : k ≤ x) :
    t.read (s.i.toNat + k.val) = s.reg k := by
  obtain ⟨-, hstored, -⟩ := registerBlockIsStored x s hwf
  obtain ⟨t', ht', hblock, -⟩ := hstored hin
  cases h.symm.trans ht'
  exact hblock k hk

/-- Settles O24: the bytes loaded are those of the memory after the store. -/
theorem storedBlockLoadsBack : Obligations.StoredBlockLoadsBack := by
  intro x s t u hwf hin h hmem hparams hi
  have hread (a : Nat) : u.read a = t.read a := by rw [State.read, State.read, hmem, hparams]
  have hfit : u.i.toNat + (x.val + 1) ≤ 4096 := by
    rw [hi]
    exact hin
  refine ⟨_, execFX65_of_fits x hfit, fun k hk => ?loaded, fun k hk => ?kept⟩
  case loaded =>
    rw [State.reg_loadBlock, if_pos hk, hread, hi]
    exact read_of_execFX55 hwf hin h hk
  case kept => rw [State.reg_loadBlock, if_neg hk.not_ge]

/-- Settles O25: both bytes of the fetch are of the stored block. -/
theorem fetchSeesTheLastStore : Obligations.FetchSeesTheLastStore := by
  intro x k l s t hwf hin hkl hlx h hpc
  have hlt : l.val ≤ x.val := hlx
  have hkx : k ≤ x := Fin.le_def.2 (by omega)
  have hnext : t.pc.toNat + 1 = s.i.toNat + l.val := by omega
  rw [State.fetch_of_fits (by omega), hnext, hpc, read_of_execFX55 hwf hin h hkx,
    read_of_execFX55 hwf hin h hlx]

end Sys2Proof.Machine
end

section
/-! PROOFS for spec file 46 (family D: draw). The two loops of R145 draw the sprite's bits one after
the other, bit `b` of row `r` as number `8 * r + b`. The invariant says what the first `j` of them
have done to the framebuffer; a bit finds its cell as it was, since no two bits share a cell. -/

namespace Sys2Proof.Machine

/-- A loop with an invariant that speaks of the number of rounds done. -/
theorem forEach_induction {σ : Type} {P : Nat → σ → Prop} {body : Nat → σ → σ} {s : σ} :
    ∀ {n : Nat}, P 0 s → (∀ k t, k < n → P k t → P (k + 1) (body k t)) → P n (forEach n body s)
  | 0, h0, _ => h0
  | n + 1, h0, hstep =>
    hstep n _ (Nat.lt_succ_self n)
      (forEach_induction h0 fun k t hk ht => hstep k t (Nat.lt_succ_of_lt hk) ht)

section Sprite

variable {row : Nat → Byte} {x0 y0 j r b : Nat} {fb : Framebuffer} {p : Framebuffer × Bool}
  {cx : Fin 64} {cy : Fin 32}

/-- Cell `(cx, cy)` is under a 1 bit among the first `j` bits of the sprite drawn from `(x0, y0)`,
each axis wrapped by itself (R148). -/
def CoveredBefore (row : Nat → Byte) (x0 y0 j : Nat) (cx : Fin 64) (cy : Fin 32) : Prop :=
  ∃ r b : Nat, b < 8 ∧ 8 * r + b < j ∧ (row r).getLsbD (7 - b) = true ∧
    cx.val = (x0 + b) % 64 ∧ cy.val = (y0 + r) % 32

theorem not_coveredBefore_zero : ¬ CoveredBefore row x0 y0 0 cx cy :=
  fun ⟨_, _, _, hj, _⟩ => Nat.not_lt_zero _ hj

/-- One bit more covers its own cell as well, if it is a 1 bit. -/
theorem coveredBefore_succ (hb : b < 8) : CoveredBefore row x0 y0 (8 * r + b + 1) cx cy ↔
    CoveredBefore row x0 y0 (8 * r + b) cx cy ∨
      ((row r).getLsbD (7 - b) = true ∧
        cx = Fin.ofNat 64 (x0 + b) ∧ cy = Fin.ofNat 32 (y0 + r)) := by
  constructor
  · rintro ⟨r', b', hb', hj, hbit, hx, hy⟩
    rcases Nat.lt_or_eq_of_le (Nat.le_of_lt_succ hj) with hlt | heq
    · exact .inl ⟨r', b', hb', hlt, hbit, hx, hy⟩
    · obtain ⟨rfl, rfl⟩ : r' = r ∧ b' = b := by omega
      exact .inr ⟨hbit, Fin.ext hx, Fin.ext hy⟩
  · rintro (⟨r', b', hb', hj, hrest⟩ | ⟨hbit, rfl, rfl⟩)
    · exact ⟨r', b', hb', Nat.lt_succ_of_lt hj, hrest⟩
    · exact ⟨r, b, hb, Nat.lt_succ_self _, hbit, rfl, rfl⟩

/-- No earlier bit has the cell of bit `b` of row `r`: a sprite has at most 32 rows of 8 bits, so
neither axis wraps onto itself (R148). -/
theorem not_coveredBefore_self (hb : b < 8) (hr : r < 32) :
    ¬ CoveredBefore row x0 y0 (8 * r + b) (Fin.ofNat 64 (x0 + b)) (Fin.ofNat 32 (y0 + r)) := by
  rintro ⟨r', b', hb', hj, -, hx, hy⟩
  simp only [Fin.val_ofNat] at hx hy
  omega

/-- The invariant of the two loops: from `fb`, the first `j` bits have inverted the covered cells
and no other, and a collision is noted exactly when one of them was lit (R148). -/
structure Drawn (row : Nat → Byte) (x0 y0 : Nat) (fb : Framebuffer) (j : Nat)
    (p : Framebuffer × Bool) : Prop where
  inverted : ∀ cx cy, CoveredBefore row x0 y0 j cx cy → p.1.cell cx cy = !fb.cell cx cy
  kept : ∀ cx cy, ¬ CoveredBefore row x0 y0 j cx cy → p.1.cell cx cy = fb.cell cx cy
  collision : p.2 = true ↔ ∃ cx cy, CoveredBefore row x0 y0 j cx cy ∧ fb.cell cx cy = true

theorem drawn_zero : Drawn row x0 y0 fb 0 (fb, false) where
  inverted _ _ h := absurd h not_coveredBefore_zero
  kept _ _ _ := rfl
  collision := by simp [not_coveredBefore_zero]

/-- One bit drawn (R145). -/
theorem drawn_drawBit (hb : b < 8) (hr : r < 32) (h : Drawn row x0 y0 fb (8 * r + b) p) :
    Drawn row x0 y0 fb (8 * r + b + 1) (drawBit (row r) x0 (y0 + r) b p) := by
  unfold drawBit
  split
  case isFalse hbit =>
    have hsame (cx : Fin 64) (cy : Fin 32) : CoveredBefore row x0 y0 (8 * r + b + 1) cx cy ↔
        CoveredBefore row x0 y0 (8 * r + b) cx cy := by
      simp [coveredBefore_succ hb, hbit]
    obtain ⟨hinv, hkept, hcoll⟩ := h
    constructor <;> simpa only [hsame]
  case isTrue hbit =>
    have hfree := not_coveredBefore_self (row := row) (x0 := x0) (y0 := y0) hb hr
    have hfound := h.kept _ _ hfree
    constructor
    case inverted =>
      intro cx cy hcov
      rw [Framebuffer.cell_toggle]
      rcases (coveredBefore_succ hb).1 hcov with hold | ⟨-, rfl, rfl⟩
      · have hne : ¬ (cx = Fin.ofNat 64 (x0 + b) ∧ cy = Fin.ofNat 32 (y0 + r)) := by
          rintro ⟨rfl, rfl⟩
          exact hfree hold
        rw [h.inverted cx cy hold, ← Bool.decide_and, decide_eq_false hne, Bool.xor_false]
      · simp only [hfound, decide_true, Bool.and_true, Bool.xor_true]
    case kept =>
      intro cx cy hnot
      rw [coveredBefore_succ hb, not_or] at hnot
      have hne : ¬ (cx = Fin.ofNat 64 (x0 + b) ∧ cy = Fin.ofNat 32 (y0 + r)) :=
        fun heq => hnot.2 ⟨hbit, heq⟩
      rw [Framebuffer.cell_toggle, h.kept cx cy hnot.1, ← Bool.decide_and, decide_eq_false hne,
        Bool.xor_false]
    case collision =>
      rw [Bool.or_eq_true, h.collision, hfound]
      simp only [coveredBefore_succ hb, hbit, true_and, or_and_right, exists_or, and_assoc,
        exists_and_left, exists_eq_left]

/-- One row drawn, bit by bit (R145). -/
theorem drawn_drawRow (hr : r < 32) (h : Drawn row x0 y0 fb (8 * r) p) :
    Drawn row x0 y0 fb (8 * (r + 1)) (drawRow (row r) x0 (y0 + r) p) :=
  forEach_induction (P := fun b => Drawn row x0 y0 fb (8 * r + b)) h
    fun _ _ hb hp => drawn_drawBit hb hr hp

/-- The whole sprite drawn, row by row (R145). -/
theorem drawn_drawSprite {n : Nat} (hn : n ≤ 32) :
    Drawn row x0 y0 fb (8 * n) (drawSprite row n x0 y0 fb) :=
  forEach_induction (P := fun r => Drawn row x0 y0 fb (8 * r)) drawn_zero
    fun _ _ hr hp => drawn_drawRow (hr.trans_le hn) hp

end Sprite

/-- The set `S` of R148 is what the bits of all `n` rows cover. -/
theorem underSprite_iff {s : State} {x y : RegIdx} {n : Fin 16} {cx : Fin 64} {cy : Fin 32} :
    UnderSprite s x y n cx cy ↔ CoveredBefore (fun r => s.read (s.i.toNat + r))
      ((s.reg x).toNat % 64) ((s.reg y).toNat % 32) (8 * n.val) cx cy := by
  constructor
  · rintro ⟨r, b, hr, hb, hrest⟩
    exact ⟨r, b, hb, by omega, hrest⟩
  · rintro ⟨r, b, hb, hj, hrest⟩
    exact ⟨r, b, by omega, hb, hrest⟩

/-- A flag is 1 exactly when its condition holds (R13). -/
theorem flagByte_eq_one_iff {c : Bool} : flagByte c = 1 ↔ c = true := by
  cases c <;> decide

/-- The frame of a draw: every register but `v[15]` keeps its value (R145). -/
theorem onlyChanged_draw (s : State) (x y : RegIdx) (n : Fin 16) :
    OnlyChanged (fun p => (∃ cx cy, p = .cell cx cy) ∨ p = .reg 15 ∨ p = .redraw) s
      (s.draw x y n) := by
  intro p hp
  cases p
  case cell cx cy => exact absurd (.inl ⟨cx, cy, rfl⟩) hp
  case redraw => exact absurd (.inr (.inr rfl)) hp
  case reg k =>
    have hk : 15 ≠ k := fun h => hp (.inr (.inl (congrArg Piece.reg h.symm)))
    exact State.reg_setReg_of_ne s _ hk
  all_goals rfl

/-- The value of a word of format D (R66). -/
theorem toNat_formatD (x y : RegIdx) (n : Fin 16) :
    (formatD x y n).toNat = 0xD000 + x.val * 256 + y.val * 16 + n.val := by
  rw [formatD_eq]
  exact toNat_formatR 0xD x y (nibble n)

/-- Settles O18: the loops' invariant after the last bit. -/
theorem drawInvertsExactlyTheSpriteCells : Obligations.DrawInvertsExactlyTheSpriteCells := by
  intro x y n s
  refine ⟨decode_ofNat_of_toNat_encode (toNat_formatD x y n), fun hfit => ?drawn,
    fun hn hout => ?fault⟩
  case drawn =>
    have hdrawn := drawn_drawSprite (row := fun r => s.read (s.i.toNat + r))
      (x0 := (s.reg x).toNat % 64) (y0 := (s.reg y).toNat % 32) (fb := s.fb) (n := n.val) (by omega)
    have hflag : (s.draw x y n).reg 15 = flagByte _ := State.reg_setReg_self s 15 _
    simp only [underSprite_iff]
    refine ⟨_, execDXYN_of_fits x y hfit, hdrawn.inverted, hdrawn.kept, ?_, ?_, rfl,
      onlyChanged_draw s x y n⟩
    · rw [hflag]
      exact flagByte_cases _
    · rw [hflag, flagByte_eq_one_iff]
      exact hdrawn.collision
  case fault => exact exec_of_access_out rfl (toNat_formatD x y n) hn.ne' hout

end Sys2Proof.Machine
end
